-- ==== Sys2Proof/Word.lean ====
section
/-!
DEFINITION. The word types of the engine: a byte, a nibble (a register or key index), a 12-bit address field and
the 16-bit instruction word, which is also the width of `I`, `PC` and a return address (spec/00_scope.md R7, R9, R10).
-/

namespace Sys2Proof

/-- 8 bits: a general register, a timer, a memory cell, the immediate `kk` (R20, R34, R35, R73). -/
abbrev Byte := BitVec 8

/-- 4 bits: the fields `op`, `x`, `y`, `n` of a word, a register index, a key index (R71, R74). -/
abbrev Nibble := BitVec 4

/-- 12 bits: the field `nnn` of a word (R71, R73). -/
abbrev Addr12 := BitVec 12

/-- 16 bits: an instruction word, `I`, `PC`, a return address (R24, R26, R30, R70). -/
abbrev Word := BitVec 16

end Sys2Proof
end

