-- ==== Sys2Proof/Syntax.lean ====
section
/-!
DEFINITION. The 34 instructions, one constructor per row of spec/opcode_table.json (spec/30_encoding.md R84).
Operands are the fields the row's word holds (R71, R72). A field that the instruction ignores (`u` below, and `y` of
the two shifts) is kept, so that a legal word and its instruction determine one another (log entry 8); no meaning
reads it.
-/

namespace Sys2Proof

inductive Instr where
  /-- `0?E0` CLS; `u` is the ignored bits 11:8 (R76, R170). -/
  | cls (u : Nibble)
  /-- `0?EE` RET; `u` is the ignored bits 11:8 (R76, R100). -/
  | ret (u : Nibble)
  /-- `1nnn` JP nnn (R101). -/
  | jp (nnn : Addr12)
  /-- `2nnn` CALL nnn (R102). -/
  | call (nnn : Addr12)
  /-- `3xkk` SE Vx, kk (R103). -/
  | seImm (x : Nibble) (kk : Byte)
  /-- `4xkk` SNE Vx, kk (R104). -/
  | sneImm (x : Nibble) (kk : Byte)
  /-- `5xyn` SE Vx, Vy; `u` is the ignored low nibble (R83, R105). -/
  | seReg (x y u : Nibble)
  /-- `6xkk` LD Vx, kk (R122). -/
  | ldImm (x : Nibble) (kk : Byte)
  /-- `7xkk` ADD Vx, kk (R123). -/
  | addImm (x : Nibble) (kk : Byte)
  /-- `8xy0` LD Vx, Vy (R124). -/
  | ldReg (x y : Nibble)
  /-- `8xy1` OR Vx, Vy (R125). -/
  | orReg (x y : Nibble)
  /-- `8xy2` AND Vx, Vy (R126). -/
  | andReg (x y : Nibble)
  /-- `8xy3` XOR Vx, Vy (R127). -/
  | xorReg (x y : Nibble)
  /-- `8xy4` ADD Vx, Vy (R128). -/
  | addReg (x y : Nibble)
  /-- `8xy5` SUB Vx, Vy (R129). -/
  | sub (x y : Nibble)
  /-- `8xy6` SHR Vx; `y` is encoded but not read (R130). -/
  | shr (x y : Nibble)
  /-- `8xy7` SUBN Vx, Vy (R131). -/
  | subn (x y : Nibble)
  /-- `8xyE` SHL Vx; `y` is encoded but not read (R132). -/
  | shl (x y : Nibble)
  /-- `9xyn` SNE Vx, Vy; `u` is the ignored low nibble (R83, R106). -/
  | sneReg (x y u : Nibble)
  /-- `Annn` LD I, nnn (R150). -/
  | ldI (nnn : Addr12)
  /-- `Bnnn` JP V0, nnn (R107). -/
  | jpV0 (nnn : Addr12)
  /-- `Cxkk` RND Vx, kk (R133). -/
  | rnd (x : Nibble) (kk : Byte)
  /-- `Dxyn` DRW Vx, Vy, n (R171). -/
  | drw (x y n : Nibble)
  /-- `Ex9E` SKP Vx (R186). -/
  | skp (x : Nibble)
  /-- `ExA1` SKNP Vx (R187). -/
  | sknp (x : Nibble)
  /-- `Fx07` LD Vx, DT (R188). -/
  | ldVxDt (x : Nibble)
  /-- `Fx0A` LD Vx, K (R189). -/
  | ldVxK (x : Nibble)
  /-- `Fx15` LD DT, Vx (R190). -/
  | ldDtVx (x : Nibble)
  /-- `Fx18` LD ST, Vx (R191). -/
  | ldStVx (x : Nibble)
  /-- `Fx1E` ADD I, Vx (R151). -/
  | addI (x : Nibble)
  /-- `Fx29` LD F, Vx (R152). -/
  | ldF (x : Nibble)
  /-- `Fx33` LD B, Vx (R153). -/
  | ldB (x : Nibble)
  /-- `Fx55` LD [I], Vx (R154). -/
  | storeRegs (x : Nibble)
  /-- `Fx65` LD Vx, [I] (R155). -/
  | loadRegs (x : Nibble)
  deriving DecidableEq, Repr

end Sys2Proof
end

