-- ==== Sys2Proof/Decode.lean ====
section
/-!
DEFINITION. The decoder and, after it, the encoder (spec/30_encoding.md). The decoder is the dispatch of R75 to R79
and R83, total on every word and on every list of bytes; the encoder is written from the encoding column of R72 and
R84. Bit patterns other than those of 6xkk, 8xy4, Dxyn and Fx29 are the spec's general knowledge (R85, log entry 7).
-/

namespace Sys2Proof

/-- The fields of a word (R71): every one is extracted from every word. -/
structure Fields where
  op : Nibble
  x : Nibble
  y : Nibble
  n : Nibble
  kk : Byte
  nnn : Addr12
  deriving DecidableEq, Repr

/-- Field extraction (R71). -/
def fields (w : Word) : Fields where
  op := w.extractLsb' 12 4
  x := w.extractLsb' 8 4
  y := w.extractLsb' 4 4
  n := w.extractLsb' 0 4
  kk := w.extractLsb' 0 8
  nnn := w.extractLsb' 0 12

/-- Why decoding gives no instruction. -/
inductive DecodeError where
  /-- The word is one of the illegal encodings of R86; it becomes the fault `InvalidOpcode(w)` (R201). -/
  | invalidOpcode (w : Word)
  /-- Fewer than two bytes were given: no word can be formed (R70). No tick meets this. -/
  | truncated
  deriving DecidableEq, Repr

/-- Family 0x0, keyed by `kk`; bits 11:8 are not examined (R76). -/
def decodeFamily0 (w : Word) (f : Fields) : Except DecodeError Instr :=
  match f.kk with
  | 0xE0#8 => .ok (.cls f.x)
  | 0xEE#8 => .ok (.ret f.x)
  | _ => .error (.invalidOpcode w)

/-- Family 0x8, keyed by `n` (R77). -/
def decodeFamily8 (w : Word) (f : Fields) : Except DecodeError Instr :=
  match f.n with
  | 0x0#4 => .ok (.ldReg f.x f.y)
  | 0x1#4 => .ok (.orReg f.x f.y)
  | 0x2#4 => .ok (.andReg f.x f.y)
  | 0x3#4 => .ok (.xorReg f.x f.y)
  | 0x4#4 => .ok (.addReg f.x f.y)
  | 0x5#4 => .ok (.sub f.x f.y)
  | 0x6#4 => .ok (.shr f.x f.y)
  | 0x7#4 => .ok (.subn f.x f.y)
  | 0xE#4 => .ok (.shl f.x f.y)
  | _ => .error (.invalidOpcode w)

/-- Family 0xE, keyed by `kk` (R78). -/
def decodeFamilyE (w : Word) (f : Fields) : Except DecodeError Instr :=
  match f.kk with
  | 0x9E#8 => .ok (.skp f.x)
  | 0xA1#8 => .ok (.sknp f.x)
  | _ => .error (.invalidOpcode w)

/-- Family 0xF, keyed by `kk` (R79). -/
def decodeFamilyF (w : Word) (f : Fields) : Except DecodeError Instr :=
  match f.kk with
  | 0x07#8 => .ok (.ldVxDt f.x)
  | 0x0A#8 => .ok (.ldVxK f.x)
  | 0x15#8 => .ok (.ldDtVx f.x)
  | 0x18#8 => .ok (.ldStVx f.x)
  | 0x1E#8 => .ok (.addI f.x)
  | 0x29#8 => .ok (.ldF f.x)
  | 0x33#8 => .ok (.ldB f.x)
  | 0x55#8 => .ok (.storeRegs f.x)
  | 0x65#8 => .ok (.loadRegs f.x)
  | _ => .error (.invalidOpcode w)

/-- The decoder: a switch on `op` to 16 families (R75, R82). The last arm is family 0xF. -/
def decodeWord (w : Word) : Except DecodeError Instr :=
  let f := fields w
  match f.op with
  | 0x0#4 => decodeFamily0 w f
  | 0x1#4 => .ok (.jp f.nnn)
  | 0x2#4 => .ok (.call f.nnn)
  | 0x3#4 => .ok (.seImm f.x f.kk)
  | 0x4#4 => .ok (.sneImm f.x f.kk)
  | 0x5#4 => .ok (.seReg f.x f.y f.n)
  | 0x6#4 => .ok (.ldImm f.x f.kk)
  | 0x7#4 => .ok (.addImm f.x f.kk)
  | 0x8#4 => decodeFamily8 w f
  | 0x9#4 => .ok (.sneReg f.x f.y f.n)
  | 0xA#4 => .ok (.ldI f.nnn)
  | 0xB#4 => .ok (.jpV0 f.nnn)
  | 0xC#4 => .ok (.rnd f.x f.kk)
  | 0xD#4 => .ok (.drw f.x f.y f.n)
  | 0xE#4 => decodeFamilyE w f
  | _ => decodeFamilyF w f

/-- A word from its two bytes, most significant byte first (R52, R70). -/
def wordOfBytes (hi lo : Byte) : Word := hi ++ lo

/-- Decoding bytes as they lie in memory: one instruction and the bytes after it. -/
def decodeBytes : List Byte → Except DecodeError (Instr × List Byte)
  | hi :: lo :: rest =>
    match decodeWord (wordOfBytes hi lo) with
    | .ok i => .ok (i, rest)
    | .error e => .error e
  | _ => .error .truncated

/-! ### The encoder -/

/-- Format `O` (R72): family 0x0, the ignored nibble, the fixed low byte. -/
def encodeO (u : Nibble) (kk : Byte) : Word := 0x0#4 ++ u ++ kk

/-- Format `A` (R72): a 12-bit address. -/
def encodeA (op : Nibble) (nnn : Addr12) : Word := op ++ nnn

/-- Formats `RI` and `R` (R72): a register and a byte, immediate or sub-opcode. -/
def encodeRI (op x : Nibble) (kk : Byte) : Word := op ++ x ++ kk

/-- Formats `RR` and `RRN` (R72): two registers and a nibble, sub-opcode, count or ignored. -/
def encodeRR (op x y n : Nibble) : Word := op ++ x ++ y ++ n

/-- The word of an instruction (R84). -/
def encode : Instr → Word
  | .cls u => encodeO u 0xE0#8
  | .ret u => encodeO u 0xEE#8
  | .jp nnn => encodeA 0x1#4 nnn
  | .call nnn => encodeA 0x2#4 nnn
  | .seImm x kk => encodeRI 0x3#4 x kk
  | .sneImm x kk => encodeRI 0x4#4 x kk
  | .seReg x y u => encodeRR 0x5#4 x y u
  | .ldImm x kk => encodeRI 0x6#4 x kk
  | .addImm x kk => encodeRI 0x7#4 x kk
  | .ldReg x y => encodeRR 0x8#4 x y 0x0#4
  | .orReg x y => encodeRR 0x8#4 x y 0x1#4
  | .andReg x y => encodeRR 0x8#4 x y 0x2#4
  | .xorReg x y => encodeRR 0x8#4 x y 0x3#4
  | .addReg x y => encodeRR 0x8#4 x y 0x4#4
  | .sub x y => encodeRR 0x8#4 x y 0x5#4
  | .shr x y => encodeRR 0x8#4 x y 0x6#4
  | .subn x y => encodeRR 0x8#4 x y 0x7#4
  | .shl x y => encodeRR 0x8#4 x y 0xE#4
  | .sneReg x y u => encodeRR 0x9#4 x y u
  | .ldI nnn => encodeA 0xA#4 nnn
  | .jpV0 nnn => encodeA 0xB#4 nnn
  | .rnd x kk => encodeRI 0xC#4 x kk
  | .drw x y n => encodeRR 0xD#4 x y n
  | .skp x => encodeRI 0xE#4 x 0x9E#8
  | .sknp x => encodeRI 0xE#4 x 0xA1#8
  | .ldVxDt x => encodeRI 0xF#4 x 0x07#8
  | .ldVxK x => encodeRI 0xF#4 x 0x0A#8
  | .ldDtVx x => encodeRI 0xF#4 x 0x15#8
  | .ldStVx x => encodeRI 0xF#4 x 0x18#8
  | .addI x => encodeRI 0xF#4 x 0x1E#8
  | .ldF x => encodeRI 0xF#4 x 0x29#8
  | .ldB x => encodeRI 0xF#4 x 0x33#8
  | .storeRegs x => encodeRI 0xF#4 x 0x55#8
  | .loadRegs x => encodeRI 0xF#4 x 0x65#8

/-- The two bytes of an instruction, the high byte first (R52, R70). -/
def encodeBytes (i : Instr) : List Byte :=
  [(encode i).extractLsb' 8 8, (encode i).extractLsb' 0 8]

/-- One row of the opcode map: the bits it fixes and their values (R84, "mask / match"). -/
structure OpcodeRow where
  mask : Word
  fixed : Word
  deriving DecidableEq, Repr

/-- The row of an instruction, transcribed from the mask / match column of R84 (not from the encoder). -/
def opcodeRow : Instr → OpcodeRow
  | .cls _ => ⟨0xF0FF#16, 0x00E0#16⟩
  | .ret _ => ⟨0xF0FF#16, 0x00EE#16⟩
  | .jp _ => ⟨0xF000#16, 0x1000#16⟩
  | .call _ => ⟨0xF000#16, 0x2000#16⟩
  | .seImm _ _ => ⟨0xF000#16, 0x3000#16⟩
  | .sneImm _ _ => ⟨0xF000#16, 0x4000#16⟩
  | .seReg _ _ _ => ⟨0xF000#16, 0x5000#16⟩
  | .ldImm _ _ => ⟨0xF000#16, 0x6000#16⟩
  | .addImm _ _ => ⟨0xF000#16, 0x7000#16⟩
  | .ldReg _ _ => ⟨0xF00F#16, 0x8000#16⟩
  | .orReg _ _ => ⟨0xF00F#16, 0x8001#16⟩
  | .andReg _ _ => ⟨0xF00F#16, 0x8002#16⟩
  | .xorReg _ _ => ⟨0xF00F#16, 0x8003#16⟩
  | .addReg _ _ => ⟨0xF00F#16, 0x8004#16⟩
  | .sub _ _ => ⟨0xF00F#16, 0x8005#16⟩
  | .shr _ _ => ⟨0xF00F#16, 0x8006#16⟩
  | .subn _ _ => ⟨0xF00F#16, 0x8007#16⟩
  | .shl _ _ => ⟨0xF00F#16, 0x800E#16⟩
  | .sneReg _ _ _ => ⟨0xF000#16, 0x9000#16⟩
  | .ldI _ => ⟨0xF000#16, 0xA000#16⟩
  | .jpV0 _ => ⟨0xF000#16, 0xB000#16⟩
  | .rnd _ _ => ⟨0xF000#16, 0xC000#16⟩
  | .drw _ _ _ => ⟨0xF000#16, 0xD000#16⟩
  | .skp _ => ⟨0xF0FF#16, 0xE09E#16⟩
  | .sknp _ => ⟨0xF0FF#16, 0xE0A1#16⟩
  | .ldVxDt _ => ⟨0xF0FF#16, 0xF007#16⟩
  | .ldVxK _ => ⟨0xF0FF#16, 0xF00A#16⟩
  | .ldDtVx _ => ⟨0xF0FF#16, 0xF015#16⟩
  | .ldStVx _ => ⟨0xF0FF#16, 0xF018#16⟩
  | .addI _ => ⟨0xF0FF#16, 0xF01E#16⟩
  | .ldF _ => ⟨0xF0FF#16, 0xF029#16⟩
  | .ldB _ => ⟨0xF0FF#16, 0xF033#16⟩
  | .storeRegs _ => ⟨0xF0FF#16, 0xF055#16⟩
  | .loadRegs _ => ⟨0xF0FF#16, 0xF065#16⟩

/-- The row takes the word in. -/
def OpcodeRow.admits (r : OpcodeRow) (w : Word) : Bool := w &&& r.mask == r.fixed

/-- The word whose bits spec/opcode_table.json numbers as `w` (one 16-bit word, bit 0 least significant). -/
def tableWord (nbits w : Nat) : Word := BitVec.ofNat 16 (w % 2 ^ nbits)

/-- The instruction the decoder reads from a table word, laid out as memory holds it: high byte first (R52). -/
def decodeTableWord (nbits w : Nat) : Option Instr :=
  let word := tableWord nbits w
  match decodeBytes [word.extractLsb' 8 8, word.extractLsb' 0 8] with
  | .ok (i, _) => some i
  | .error _ => none

end Sys2Proof
end

