-- ==== Sys2Proof/Machine/Flags.lean ====
section
/-!
DEFINITION. The flag computations of the arithmetic family and of the draw (spec/41_alu.md R120, R128 to R134,
spec/43_display.md R173). The flag is written to `VF` as the byte 0 or 1.
-/

namespace Sys2Proof.Machine

/-- A condition as the byte 1 or 0. -/
def flagByte (b : Bool) : Byte := if b then 1#8 else 0#8

/-- ADD: 1 if the unsigned sum is at least 256 (R128). -/
def carryFlag (a b : Byte) : Byte := flagByte (decide (256 ≤ a.toNat + b.toNat))

/-- SUB and SUBN: 1 if the minuend is at least the subtrahend, "no borrow" (R129, R131). -/
def noBorrowFlag (minuend subtrahend : Byte) : Byte := flagByte (decide (subtrahend.toNat ≤ minuend.toNat))

/-- SHR: the bit shifted out at the right, bit 0 before the shift (R130). -/
def shiftRightFlag (a : Byte) : Byte := flagByte (a.getLsbD 0)

/-- SHL: the bit shifted out at the left, bit 7 before the shift (R132). -/
def shiftLeftFlag (a : Byte) : Byte := flagByte (a.getLsbD 7)

/-- DRW: 1 if any pixel went from 1 to 0 (R173). -/
def collisionFlag (collision : Bool) : Byte := flagByte collision

/-- ADD result: the sum modulo 256 (R128). -/
def addResult (a b : Byte) : Byte := BitVec.ofNat 8 ((a.toNat + b.toNat) % 256)

/-- SUB and SUBN result: `(minuend - subtrahend + 256) mod 256` (R129, R131). -/
def subResult (minuend subtrahend : Byte) : Byte :=
  BitVec.ofNat 8 ((minuend.toNat + 256 - subtrahend.toNat) % 256)

/-- SHR result: `a >> 1`, bit 7 becomes 0 (R130). -/
def shiftRightResult (a : Byte) : Byte := a >>> 1

/-- SHL result: `(a << 1) mod 256`, bit 0 becomes 0 (R132). -/
def shiftLeftResult (a : Byte) : Byte := a <<< 1

end Sys2Proof.Machine
end

