-- ==== Sys2Proof/Config.lean ====
section
/-!
DEFINITION. The named parameters the spec leaves open (spec/00_scope.md R8) and the one free value of the model,
`Rand8()` (R14). The default value of each parameter stands in Sys2Proof/Machine/Defaults.lean.
-/

namespace Sys2Proof

/-- `KEY_INDEX_MODE` (R8, R185): what a key skip does with a register value above 15. -/
inductive KeyIndexMode where
  | fault
  | lowNibble
  deriving DecidableEq, Repr

/-- `FONT_DIGIT_MODE` (R8, R152): which digit `Fx29` takes from a register value above 15. -/
inductive FontDigitMode where
  | lowNibble
  | fullByte
  deriving DecidableEq, Repr

/-- The parameters of R8 that are plain data. They are fixed when an engine is made and nothing writes them. -/
structure Config where
  /-- `STACK_DEPTH`, the most entries the call stack holds (R31). -/
  stackDepth : Nat
  /-- `FONT`, the 80 bytes that stand at 0x50 to 0x9F after reset (R33). -/
  font : Vector Byte 80
  keyIndexMode : KeyIndexMode
  fontDigitMode : FontDigitMode
  deriving DecidableEq, Repr

/-- `Rand8()` (R14, R133): the byte of the n-th draw. It has no body: nothing constrains it (log entry 5). -/
opaque Config.rand8 : Nat → Byte

end Sys2Proof
end

