-- ==== Sys2Proof/Machine/Defaults.lean ====
section
/-!
DEFINITION. The constants of spec/00_scope.md R7 and the default value of each parameter of R8, among them the font
table of spec/10_state.md R33.
-/

namespace Sys2Proof.Machine

/-- `MEM_SIZE`: addresses 0x000 to 0xFFF (R7, R32). -/
def memSize : Nat := 0x1000

/-- `FONT_BASE` (R7). -/
def fontBase : Nat := 0x50

/-- `FONT_SIZE` (R7). -/
def fontSize : Nat := 80

/-- `PROGRAM_BASE` (R7, R57). -/
def programBase : Nat := 0x200

/-- `FLAG_REG`: `VF` (R7, R22). -/
def flagReg : Nibble := 0xF#4

/-- The 16 default glyphs, row by row, in the order of the table of R33 (the spec's general knowledge G4; log entry 2). -/
def defaultFont : Vector Byte 80 :=
  (#v[0xF0#8, 0x90#8, 0x90#8, 0x90#8, 0xF0#8] ++ #v[0x20#8, 0x60#8, 0x20#8, 0x20#8, 0x70#8]
    ++ #v[0xF0#8, 0x10#8, 0xF0#8, 0x80#8, 0xF0#8] ++ #v[0xF0#8, 0x10#8, 0xF0#8, 0x10#8, 0xF0#8]
    ++ #v[0x90#8, 0x90#8, 0xF0#8, 0x10#8, 0x10#8] ++ #v[0xF0#8, 0x80#8, 0xF0#8, 0x10#8, 0xF0#8]
    ++ #v[0xF0#8, 0x80#8, 0xF0#8, 0x90#8, 0xF0#8] ++ #v[0xF0#8, 0x10#8, 0x20#8, 0x40#8, 0x40#8]
    ++ #v[0xF0#8, 0x90#8, 0xF0#8, 0x90#8, 0xF0#8] ++ #v[0xF0#8, 0x90#8, 0xF0#8, 0x10#8, 0xF0#8]
    ++ #v[0xF0#8, 0x90#8, 0xF0#8, 0x90#8, 0x90#8] ++ #v[0xE0#8, 0x90#8, 0xE0#8, 0x90#8, 0xE0#8]
    ++ #v[0xF0#8, 0x80#8, 0x80#8, 0x80#8, 0xF0#8] ++ #v[0xE0#8, 0x90#8, 0x90#8, 0x90#8, 0xE0#8]
    ++ #v[0xF0#8, 0x80#8, 0xF0#8, 0x80#8, 0xF0#8] ++ #v[0xF0#8, 0x80#8, 0xF0#8, 0x80#8, 0x80#8])

/-- The defaults of R8 (D1, D9, D10, D27; log entries 1 to 4). -/
def defaultConfig : Config where
  stackDepth := 16
  font := defaultFont
  keyIndexMode := .fault
  fontDigitMode := .lowNibble

end Sys2Proof.Machine
end

