-- ==== Sys2Proof/Machine/State.lean ====
section
/-!
DEFINITION. The state of the engine (spec/10_state.md), the errors it reports (spec/60_exceptions.md R200) and the
state after reset (R44). Plain data: no field has a function type.
-/

namespace Sys2Proof.Machine

/-- Memory as the list of (address, byte) pairs that differ from the reset contents, addresses rising (R32, R44). -/
abbrev Memory := List Host.Cell

/-- The framebuffer `FB`: 32 rows of 64 pixels, `true` for a pixel that is 1 (R36, R37). -/
abbrev Framebuffer := Vector (Vector Bool 64) 32

/-- Every piece of state the spec gives the engine (R20 to R43), and the model's own `draws` and `config`. -/
structure State where
  /-- `V[0]` to `V[15]` (R20). -/
  v : Vector Byte 16
  /-- `I` (R24). -/
  i : Word
  /-- `PC` (R26). -/
  pc : Word
  /-- The call stack `S`, its top at the end (R11, R30). -/
  stack : List Word
  /-- The delay timer `DT` (R34). -/
  dt : Byte
  /-- The sound timer `ST` (R35). -/
  st : Byte
  /-- The framebuffer `FB` (R36). -/
  fb : Framebuffer
  /-- The key states `K[0]` to `K[15]` (R38). -/
  keys : Vector Bool 16
  /-- The key-wait flag (R40). -/
  waiting : Bool
  /-- `wait_x`, the register a key-wait writes (R40). -/
  waitX : Nibble
  /-- Memory `M` (R32): the cells that differ from the reset contents. -/
  mem : Memory
  /-- The model's own: how many draws `Rand8()` were taken (R14, R133; log entry 5). -/
  draws : Nat
  /-- The model's own: the parameters of R8, which nothing writes (log entry 1). -/
  config : Config
  deriving DecidableEq, Repr

/-- The error kinds, in the order of R200. Each is reported to the host as the outcome of the transaction; a step
that raises one is a fault (R213), which is safe: the engine itself would let the host go on (log entry 6). -/
inductive Fault where
  /-- `InvalidOpcode(w)`: raised by decode on the illegal encodings of R86 (R201). Safe. -/
  | invalidOpcode (w : Word)
  /-- `StackUnderflow`: raised by `00EE` on an empty stack (R202). Safe. -/
  | stackUnderflow
  /-- `StackOverflow`: raised by `2nnn` when the stack holds `STACK_DEPTH` entries (R203). Safe. -/
  | stackOverflow
  /-- `MemoryOutOfBounds`: raised by the range check of the fetch, `Dxyn`, `Fx33`, `Fx55`, `Fx65` and `load` (R204, R232). Safe. -/
  | memoryOutOfBounds
  /-- `KeyIndexOutOfRange(v)`: raised by `Ex9E` and `ExA1` under `KEY_INDEX_MODE = fault`, and by the host's
  `set_key` and `get_key_state` (R205, R241, R242). Safe. -/
  | keyIndexOutOfRange (v : Nat)
  deriving DecidableEq, Repr

/-- Why an instruction has no meaning in the model. No arm of `exec` raises it: all 34 instructions are modelled. -/
inductive Refusal where
  /-- An instruction the model has not reached, by its mnemonic. Raised by nothing here; it would be safe. -/
  | notModelled (mnemonic : String)
  deriving DecidableEq, Repr

/-- The outcome of an instruction or of a tick. -/
abbrev Result := Host.Outcome State Fault Refusal

/-- The engine that `new()` makes with the given parameters (R44, R230); no draw has been taken (log entry 5). -/
def State.new (c : Config) : State where
  v := Vector.replicate 16 0#8
  i := 0#16
  pc := 0x200#16
  stack := []
  dt := 0#8
  st := 0#8
  fb := Vector.replicate 32 (Vector.replicate 64 false)
  keys := Vector.replicate 16 false
  waiting := false
  waitX := 0#4
  mem := []
  draws := 0
  config := c

/-- The machine right after reset, with the default parameters of R8 (R44). -/
def State.reset : State := State.new defaultConfig

end Sys2Proof.Machine
end

