-- ==== Sys2Proof/Machine/Ops.lean ====
section
/-!
DEFINITION. The named operations over registers, memory, stack and framebuffer that every meaning is written with,
and the raising of an error (spec/00_scope.md R11 to R14, spec/20_memory.md).
-/

namespace Sys2Proof.Machine

/-! ### General registers (R11, R20) -/

/-- `V[x]`. -/
def readV (s : State) (x : Nibble) : Byte := s.v[x.toNat]'x.isLt

/-- `V[x] <- b`. -/
def writeV (s : State) (x : Nibble) (b : Byte) : State := { s with v := s.v.set x.toNat b x.isLt }

/-- `VF <- b` (R22). -/
def writeFlag (s : State) (b : Byte) : State := writeV s flagReg b

/-- `V[x] <- b`, then `VF <- flag`: "only then writes the flag to `VF`" (R121). -/
def writeVThenFlag (s : State) (x : Nibble) (b flag : Byte) : State := writeFlag (writeV s x b) flag

/-! ### Memory (R12, R32, R50 to R61) -/

/-- What an unlisted address reads as: the reset contents, FONT at 0x50 to 0x9F and 0 elsewhere (R44, R57). -/
def resetByte (font : Vector Byte 80) (a : Nat) : Byte :=
  if h : fontBase ≤ a ∧ a < fontBase + fontSize then
    font[a - fontBase]'(by simp only [fontBase, fontSize] at h ⊢; omega)
  else 0#8

/-- The byte listed for an address, or what the address reads as unlisted. -/
def Memory.read (blank : Nat → Byte) : Memory → Nat → Byte
  | [], a => blank a
  | c :: m, a => if c.1 = a then c.2 else Memory.read blank m a

/-- One cell put in front, unless its byte is what the address reads as unlisted. -/
def Memory.put (blank : Nat → Byte) (a : Nat) (b : Byte) (m : Memory) : Memory :=
  if b = blank a then m else (a, b) :: m

/-- Writing one byte, in the canonical form: addresses rising, no cell equal to the unlisted byte. -/
def Memory.write (blank : Nat → Byte) : Memory → Nat → Byte → Memory
  | [], a, b => Memory.put blank a b []
  | c :: m, a, b =>
    if a < c.1 then Memory.put blank a b (c :: m)
    else if a = c.1 then Memory.put blank a b m
    else c :: Memory.write blank m a b

/-- Every address of the list lies above `lo`, below the end of memory, addresses rise, and no cell holds its
unlisted byte. -/
def Memory.wfFrom (blank : Nat → Byte) : Nat → Memory → Bool
  | _, [] => true
  | lo, c :: m =>
    decide (lo ≤ c.1) && decide (c.1 < memSize) && decide (c.2 ≠ blank c.1) && Memory.wfFrom blank (c.1 + 1) m

/-- The canonical form of memory. -/
def Memory.wf (blank : Nat → Byte) (m : Memory) : Bool := Memory.wfFrom blank 0 m

/-- `MemRead(a, 1)` (R12). The range check is the caller's. -/
def readByte (s : State) (a : Nat) : Byte := Memory.read (resetByte s.config.font) s.mem a

/-- `MemWrite(a, 1, b)` (R12). The range check is the caller's. -/
def writeByte (s : State) (a : Nat) (b : Byte) : State :=
  { s with mem := Memory.write (resetByte s.config.font) s.mem a b }

/-- The `n` bytes from `a` up, in rising order. -/
def readBytes (s : State) (a : Nat) : Nat → List Byte
  | 0 => []
  | n + 1 => readByte s a :: readBytes s (a + 1) n

/-- Bytes written from `a` up, in rising order. -/
def writeBytes (s : State) (a : Nat) : List Byte → State
  | [] => s
  | b :: bs => writeBytes (writeByte s a b) (a + 1) bs

/-! ### Errors (R13, R200 to R210) -/

/-- `raise E`: the instruction stops and the error is the outcome. There is no trap entry: nothing is saved, no mode
changes and no control is transferred (R13, R210). -/
def raise (e : Fault) : Result := .fault e

/-- The condition of `CheckRange(a, n)`: some byte of the range lies above 0xFFF (R12, R55). -/
def outOfRange (a n : Nat) : Bool := decide (0 < n) && decide (0xFFF < a + n - 1)

/-- `CheckRange(a, n)` before the rest of an instruction (R12). -/
def checkRange (a n : Nat) (rest : Result) : Result :=
  if outOfRange a n then raise .memoryOutOfBounds else rest

/-! ### Program counter and stack (R26, R27, R30, R31) -/

/-- `PC <- (PC + 2) mod 2^16`: the fetch's advance and a taken skip (R26, R27). -/
def advancePc (s : State) : State := { s with pc := s.pc + 2#16 }

/-- `PC <- target` (R14). -/
def setPc (s : State) (target : Word) : State := { s with pc := target }

/-- `if condition: PC <- (PC + 2) mod 2^16` (R103 to R106). -/
def skipIf (condition : Bool) (s : State) : State := if condition then advancePc s else s

/-- `push(S, a)` (R11). -/
def pushStack (s : State) (a : Word) : State := { s with stack := s.stack ++ [a] }

/-- `pop(S)`: the last entry and the state without it, or nothing when the stack is empty (R11). -/
def popStack (s : State) : Option (Word × State) :=
  match s.stack.getLast? with
  | some a => some (a, { s with stack := s.stack.dropLast })
  | none => none

/-! ### Block transfers (R154, R155) -/

/-- `V[0]` to `V[x]`, in rising order. -/
def regsUpTo (s : State) (x : Nibble) : List Byte := s.v.toList.take (x.toNat + 1)

/-- `V[r] <- M[a + r]` for `r` from 0 below `n`, in rising order. -/
def loadRegsBelow (s : State) (a : Nat) : Nat → State
  | 0 => s
  | n + 1 =>
    let t := loadRegsBelow s a n
    writeV t (BitVec.ofNat 4 n) (readByte t (a + n))

/-- `I <- w` (R24). -/
def setI (s : State) (w : Word) : State := { s with i := w }

/-! ### Framebuffer (R36, R37, R171 to R174) -/

/-- `FB[x][y]`. -/
def pixel (fb : Framebuffer) (x : Fin 64) (y : Fin 32) : Bool := fb[y.val][x.val]

/-- `FB[x][y] <- b`. -/
def setPixel (fb : Framebuffer) (x : Fin 64) (y : Fin 32) (b : Bool) : Framebuffer :=
  fb.set y.val (fb[y.val].set x.val b)

/-- Every pixel 0. -/
def clearFramebuffer : Framebuffer := Vector.replicate 32 (Vector.replicate 64 false)

/-- What a draw works on: the framebuffer and the collision bit so far (R171). -/
structure Canvas where
  fb : Framebuffer
  collision : Bool
  deriving DecidableEq, Repr

/-- One sprite bit: bit `7 - c` of the row goes to column `(cx + c) mod 64`, row `(cy + r) mod 32`, by exclusive-or;
a pixel that goes from 1 to 0 is a collision (R171 to R173). -/
def drawBit (cx cy r : Nat) (row : Byte) (p : Canvas) (c : Nat) : Canvas :=
  if row.getLsbD (7 - c) then
    let px := Fin.ofNat 64 (cx + c)
    let py := Fin.ofNat 32 (cy + r)
    let was := pixel p.fb px py
    { fb := setPixel p.fb px py (!was), collision := p.collision || was }
  else p

/-- One sprite row: columns 0 to 7, ascending (R171). -/
def drawRow (cx cy r : Nat) (row : Byte) (p : Canvas) : Canvas :=
  [0, 1, 2, 3, 4, 5, 6, 7].foldl (drawBit cx cy r row) p

/-- The sprite rows from row `r` on, ascending (R171). -/
def drawRows (cx cy : Nat) : Nat → List Byte → Canvas → Canvas
  | _, [], p => p
  | r, row :: rows, p => drawRows cx cy (r + 1) rows (drawRow cx cy r row p)

/-- A whole sprite drawn on a framebuffer from no collision (R171). -/
def drawSprite (cx cy : Nat) (rows : List Byte) (fb : Framebuffer) : Canvas :=
  drawRows cx cy 0 rows { fb := fb, collision := false }

/-! ### Timers (R214) and the draw (R14) -/

/-- A timer counts down by one and stops at 0 (R34, R214). -/
def countDown (t : Byte) : Byte := if t = 0#8 then 0#8 else t - 1#8

/-- `DecrementTimers()` (R214). -/
def decrementTimers (s : State) : State := { s with dt := countDown s.dt, st := countDown s.st }

/-- `Rand8()`: the byte of this draw, and the state in which it is taken (R14, R133). -/
def takeDraw (s : State) : Byte × State := (Config.rand8 s.draws, { s with draws := s.draws + 1 })

end Sys2Proof.Machine
end

