-- ==== Sys2Proof/Machine/Alu.lean ====
section
/-!
DEFINITION. Register load, arithmetic, logic and random (spec/41_alu.md R120 to R134). Operands are read first, the
result is written to `V[x]`, and the flag to `VF` last (R121).
-/

namespace Sys2Proof.Machine

/-- `6xkk` LD Vx, kk (R122). -/
def execLdImm (x : Nibble) (kk : Byte) (s : State) : Result := .next (writeV s x kk)

/-- `7xkk` ADD Vx, kk (R123): no flag. -/
def execAddImm (x : Nibble) (kk : Byte) (s : State) : Result := .next (writeV s x (addResult (readV s x) kk))

/-- `8xy0` LD Vx, Vy (R124). -/
def execLdReg (x y : Nibble) (s : State) : Result := .next (writeV s x (readV s y))

/-- `8xy1` OR Vx, Vy (R125): no flag. -/
def execOrReg (x y : Nibble) (s : State) : Result := .next (writeV s x (readV s x ||| readV s y))

/-- `8xy2` AND Vx, Vy (R126): no flag. -/
def execAndReg (x y : Nibble) (s : State) : Result := .next (writeV s x (readV s x &&& readV s y))

/-- `8xy3` XOR Vx, Vy (R127): no flag. -/
def execXorReg (x y : Nibble) (s : State) : Result := .next (writeV s x (readV s x ^^^ readV s y))

/-- `8xy4` ADD Vx, Vy (R128): `VF` is the carry. -/
def execAddReg (x y : Nibble) (s : State) : Result :=
  let a := readV s x
  let b := readV s y
  .next (writeVThenFlag s x (addResult a b) (carryFlag a b))

/-- `8xy5` SUB Vx, Vy (R129): `VF` is NOT borrow of `X - Y`. -/
def execSub (x y : Nibble) (s : State) : Result :=
  let a := readV s x
  let b := readV s y
  .next (writeVThenFlag s x (subResult a b) (noBorrowFlag a b))

/-- `8xy6` SHR Vx (R130): `V[y]` is neither read nor written. -/
def execShr (x _y : Nibble) (s : State) : Result :=
  let a := readV s x
  .next (writeVThenFlag s x (shiftRightResult a) (shiftRightFlag a))

/-- `8xy7` SUBN Vx, Vy (R131): `VF` is NOT borrow of `Y - X`. -/
def execSubn (x y : Nibble) (s : State) : Result :=
  let a := readV s x
  let b := readV s y
  .next (writeVThenFlag s x (subResult b a) (noBorrowFlag b a))

/-- `8xyE` SHL Vx (R132): `V[y]` is neither read nor written. -/
def execShl (x _y : Nibble) (s : State) : Result :=
  let a := readV s x
  .next (writeVThenFlag s x (shiftLeftResult a) (shiftLeftFlag a))

/-- `Cxkk` RND Vx, kk (R133): one draw is taken whatever `kk` is. -/
def execRnd (x : Nibble) (kk : Byte) (s : State) : Result :=
  let (r, t) := takeDraw s
  .next (writeV t x (r &&& kk))

end Sys2Proof.Machine
end

