-- ==== Sys2Proof/Machine/Operands.lean ====
section
/-!
DEFINITION. Operand forms: immediates (spec/30_encoding.md R73), the effective address (spec/42_index_memory.md R156),
the key index (spec/44_keys_timers.md R185) and the font digit (R152).
-/

namespace Sys2Proof.Machine

/-- `zext_16(nnn)` (R73). -/
def zextAddr (nnn : Addr12) : Word := nnn.setWidth 16

/-- `zext_16(V[x])` (R10, R107, R151). -/
def zextByte (b : Byte) : Word := b.setWidth 16

/-- The base of every data access: `I` as a natural number, never masked or truncated (R25, R156). -/
def dataAddress (s : State) : Nat := s.i.toNat

/-- `KeyIndex(v)` (R185). -/
def keyIndex (mode : KeyIndexMode) (v : Byte) : Except Fault Nibble :=
  if v.toNat ≤ 15 then .ok (v.extractLsb' 0 4)
  else
    match mode with
    | .fault => .error (.keyIndexOutOfRange v.toNat)
    | .lowNibble => .ok (v.extractLsb' 0 4)

/-- `K[k]` (R38). -/
def keyState (s : State) (k : Nibble) : Bool := s.keys[k.toNat]'k.isLt

/-- The key state that a key skip tests, at index `KeyIndex(V[x])` (R185 to R187). -/
def keyOperand (s : State) (x : Nibble) : Except Fault Bool :=
  match keyIndex s.config.keyIndexMode (readV s x) with
  | .ok k => .ok (keyState s k)
  | .error e => .error e

/-- The digit `Fx29` takes from a register value (R152). -/
def fontDigit (mode : FontDigitMode) (v : Byte) : Nat :=
  match mode with
  | .lowNibble => (v.extractLsb' 0 4).toNat
  | .fullByte => v.toNat

/-- The address of a digit's glyph: `0x50 + 5 * d` (R33, R152). -/
def glyphAddress (d : Nat) : Word := BitVec.ofNat 16 (fontBase + 5 * d)

/-- The three decimal digits of a byte: hundreds, tens, ones (R153). -/
def bcdDigits (v : Byte) : List Byte :=
  [BitVec.ofNat 8 (v.toNat / 100), BitVec.ofNat 8 (v.toNat / 10 % 10), BitVec.ofNat 8 (v.toNat % 10)]

end Sys2Proof.Machine
end

