-- ==== Sys2Proof/Machine/ControlFlow.lean ====
section
/-!
DEFINITION. Control flow instructions (spec/40_control_flow.md R100 to R110). `PC` already holds the instruction's
address plus 2 when a meaning runs under `tick` (R26).
-/

namespace Sys2Proof.Machine

/-- `00EE` RET (R100). The popped value is used as it is. -/
def execRet (_u : Nibble) (s : State) : Result :=
  match popStack s with
  | none => raise .stackUnderflow
  | some (a, t) => .next (setPc t a)

/-- `1nnn` JP nnn (R101). -/
def execJp (nnn : Addr12) (s : State) : Result := .next (setPc s (zextAddr nnn))

/-- `2nnn` CALL nnn (R102): pushes the advanced `PC`. -/
def execCall (nnn : Addr12) (s : State) : Result :=
  if s.stack.length = s.config.stackDepth then raise .stackOverflow
  else .next (setPc (pushStack s s.pc) (zextAddr nnn))

/-- `3xkk` SE Vx, kk (R103). -/
def execSeImm (x : Nibble) (kk : Byte) (s : State) : Result := .next (skipIf (readV s x == kk) s)

/-- `4xkk` SNE Vx, kk (R104). -/
def execSneImm (x : Nibble) (kk : Byte) (s : State) : Result := .next (skipIf (readV s x != kk) s)

/-- `5xyn` SE Vx, Vy (R105); the low nibble is ignored (R83). -/
def execSeReg (x y _u : Nibble) (s : State) : Result := .next (skipIf (readV s x == readV s y) s)

/-- `9xyn` SNE Vx, Vy (R106); the low nibble is ignored (R83). -/
def execSneReg (x y _u : Nibble) (s : State) : Result := .next (skipIf (readV s x != readV s y) s)

/-- `Bnnn` JP V0, nnn (R107): the sum is not truncated to 12 bits. -/
def execJpV0 (nnn : Addr12) (s : State) : Result :=
  .next (setPc s (zextAddr nnn + zextByte (readV s 0#4)))

end Sys2Proof.Machine
end

