-- ==== Sys2Proof/Machine/Display.lean ====
section
/-!
DEFINITION. Display instructions (spec/43_display.md R170 to R175).
-/

namespace Sys2Proof.Machine

/-- `00E0` CLS (R170): every pixel 0, no flag. -/
def execCls (_u : Nibble) (s : State) : Result := .next { s with fb := clearFramebuffer }

/-- `Dxyn` DRW Vx, Vy, n (R171): the anchor is read before `VF` is cleared, and `VF` ends as the collision flag. -/
def execDrw (x y n : Nibble) (s : State) : Result :=
  let cx := (readV s x).toNat
  let cy := (readV s y).toNat
  checkRange (dataAddress s) n.toNat
    (let cleared := writeFlag s 0#8
     let drawn := drawSprite cx cy (readBytes cleared (dataAddress s) n.toNat) cleared.fb
     .next (writeFlag { cleared with fb := drawn.fb } (collisionFlag drawn.collision)))

end Sys2Proof.Machine
end

