-- ==== Sys2Proof/Machine/IndexMemory.lean ====
section
/-!
DEFINITION. Index register and memory instructions (spec/42_index_memory.md R150 to R157). Each checks its whole range
before its first access, so a failing instruction changes nothing (R12, R206).
-/

namespace Sys2Proof.Machine

/-- `Annn` LD I, nnn (R150). -/
def execLdI (nnn : Addr12) (s : State) : Result := .next (setI s (zextAddr nnn))

/-- `Fx1E` ADD I, Vx (R151): modulo 2^16, no flag. -/
def execAddI (x : Nibble) (s : State) : Result := .next (setI s (s.i + zextByte (readV s x)))

/-- `Fx29` LD F, Vx (R152). -/
def execLdF (x : Nibble) (s : State) : Result :=
  .next (setI s (glyphAddress (fontDigit s.config.fontDigitMode (readV s x))))

/-- `Fx33` LD B, Vx (R153): `I` is not changed. -/
def execLdB (x : Nibble) (s : State) : Result :=
  checkRange (dataAddress s) 3 (.next (writeBytes s (dataAddress s) (bcdDigits (readV s x))))

/-- `I <- (I + x + 1) mod 2^16` (R154, R155). -/
def advanceI (s : State) (x : Nibble) : State := setI s (BitVec.ofNat 16 (s.i.toNat + x.toNat + 1))

/-- `Fx55` LD [I], Vx (R154). -/
def execStoreRegs (x : Nibble) (s : State) : Result :=
  checkRange (dataAddress s) (x.toNat + 1)
    (.next (advanceI (writeBytes s (dataAddress s) (regsUpTo s x)) x))

/-- `Fx65` LD Vx, [I] (R155). -/
def execLoadRegs (x : Nibble) (s : State) : Result :=
  checkRange (dataAddress s) (x.toNat + 1)
    (.next (advanceI (loadRegsBelow s (dataAddress s) (x.toNat + 1)) x))

end Sys2Proof.Machine
end

