-- ==== Sys2Proof/Machine/KeysTimers.lean ====
section
/-!
DEFINITION. Key and timer instructions (spec/44_keys_timers.md R185 to R193).
-/

namespace Sys2Proof.Machine

/-- `Ex9E` SKP Vx (R186). -/
def execSkp (x : Nibble) (s : State) : Result :=
  match keyOperand s x with
  | .ok pressed => .next (skipIf pressed s)
  | .error e => raise e

/-- `ExA1` SKNP Vx (R187). -/
def execSknp (x : Nibble) (s : State) : Result :=
  match keyOperand s x with
  | .ok pressed => .next (skipIf (!pressed) s)
  | .error e => raise e

/-- `Fx07` LD Vx, DT (R188): `DT` before this tick's decrement. -/
def execLdVxDt (x : Nibble) (s : State) : Result := .next (writeV s x s.dt)

/-- `Fx0A` LD Vx, K (R189): `V[x]` is written when the wait completes, not here. -/
def execLdVxK (x : Nibble) (s : State) : Result := .next { s with waiting := true, waitX := x }

/-- `Fx15` LD DT, Vx (R190). -/
def execLdDtVx (x : Nibble) (s : State) : Result := .next { s with dt := readV s x }

/-- `Fx18` LD ST, Vx (R191). -/
def execLdStVx (x : Nibble) (s : State) : Result := .next { s with st := readV s x }

end Sys2Proof.Machine
end

