-- ==== Sys2Proof/Machine/Cycle.lean ====
section
/-!
DEFINITION. The execution cycle: fetch, `Execute(w)`, `tick` and `handle_opcode` (spec/30_encoding.md R80 and R81), and
the state an error leaves (spec/60_exceptions.md R206).
-/

namespace Sys2Proof.Machine

/-- The word at `PC`: two bytes, most significant first (R52, R80). -/
def fetchWord (s : State) : Word := wordOfBytes (readByte s s.pc.toNat) (readByte s (s.pc.toNat + 1))

/-- `Execute(w)`: decode, then the instruction's rule (R75 to R80). An illegal word raises `InvalidOpcode(w)` (R201). -/
def executeWord (w : Word) (s : State) : Result :=
  match decodeWord w with
  | .ok i => exec i s
  | .error _ => raise (.invalidOpcode w)

/-- The end of a tick that reports no error: the timers count down (R80, R214). -/
def finishTick (r : Result) : Result :=
  match r with
  | .next t => .next (decrementTimers t)
  | .fault e => .fault e
  | .refused e => .refused e

/-- The outcome of one `tick` (R80). A tick that finds the engine waiting only decrements the timers. -/
def tickOutcome (s : State) : Result :=
  if s.waiting then .next (decrementTimers s)
  else checkRange s.pc.toNat 2 (finishTick (executeWord (fetchWord s) (advancePc s)))

/-- The value a read-only query answers (R242 to R246). -/
inductive Answer where
  | flag (b : Bool)
  | number (n : Nat)
  | numbers (ns : List Nat)
  | byte (b : Byte)
  | bytes (bs : List Byte)
  | word (w : Word)
  | words (ws : List Word)
  deriving DecidableEq, Repr

/-- What a transaction reports to the host (R80, R206, R242 to R246). -/
inductive Reply where
  | ok
  | err (e : Fault)
  /-- The value of a query. -/
  | answer (a : Answer)
  /-- A query refused with no value: `get_pixel` outside the grid (R243; log entry 19). -/
  | noAnswer
  /-- An instruction the model does not give a meaning; no transaction reports it. -/
  | unmodelled (r : Refusal)
  deriving DecidableEq, Repr

/-- The state an error of a tick leaves: unchanged for an error of the fetch, `PC` advanced for an error of decode or
of the instruction (R206). -/
def stateAfterError (s : State) : State := if outOfRange s.pc.toNat 2 then s else advancePc s

/-- An outcome with the state the engine is left in, given the state an error leaves. -/
def settle (onError : State) (r : Result) : State × Reply :=
  match r with
  | .next t => (t, .ok)
  | .fault e => (onError, .err e)
  | .refused e => (onError, .unmodelled e)

/-- `tick()` as the host sees it: the state it leaves and what it reports (R80, R206, R211, R240). -/
def tick (s : State) : State × Reply := settle (stateAfterError s) (tickOutcome s)

/-- `handle_opcode(w)`: no fetch, no advance of `PC`, no decrement, `waiting` not looked at; an error leaves the state
before the call (R81, R206, R247). -/
def handleOpcode (w : Word) (s : State) : State × Reply := settle s (executeWord w s)

/-- The word placed where the next tick fetches: the engine is not waiting, and `PC` is kept unless no word fits
there, in which case it is the program base (log entry 15). -/
def placeFetchWord (s : State) (w : Word) : State :=
  let base := if outOfRange s.pc.toNat 2 then setPc s (BitVec.ofNat 16 programBase) else s
  writeBytes { base with waiting := false } base.pc.toNat [w.extractLsb' 8 8, w.extractLsb' 0 8]

end Sys2Proof.Machine
end

