-- ==== Sys2Proof/Machine/Step.lean ====
section
/-!
DEFINITION. The step is one `tick` (spec/30_encoding.md R80); an error is its fault (spec/60_exceptions.md R213).
-/

namespace Sys2Proof.Machine

/-- One `tick`. -/
def step (s : State) : Host.Outcome State Fault Refusal := tickOutcome s

/-- `s` with a table word stored where `step` fetches its next instruction (log entry 15). -/
def State.withFetchWord (s : State) (nbits w : Nat) : State := placeFetchWord s (tableWord nbits w)

end Sys2Proof.Machine
end

