-- ==== Sys2Proof/WellFormed.lean ====
section
/-!
DEFINITION. What is well formed: the numbers a word's fields may hold (spec/30_encoding.md R71, R73, R74), the
parameters of an engine (spec/00_scope.md R8) and a program image for `load` (spec/70_reset_and_hazards.md R232).
"The decoder's field widths are the error boundary" (R74): the operand types of `Instr` already hold the field
bounds, so every term of `Instr` is well formed (Laws/Encoding.lean, `Instr.wellFormed_all`).
-/

namespace Sys2Proof

/-- The operands of an instruction as bare numbers, as an assembler would be given them. -/
structure Operands where
  x : Nat := 0
  y : Nat := 0
  n : Nat := 0
  kk : Nat := 0
  nnn : Nat := 0
  deriving DecidableEq, Repr

/-- Each number fits its field: `x`, `y`, `n` four bits, `kk` eight, `nnn` twelve (R71, R73, R74). -/
def Operands.wellFormed (o : Operands) : Bool :=
  decide (o.x < 16) && decide (o.y < 16) && decide (o.n < 16) && decide (o.kk < 256) && decide (o.nnn < 4096)

/-- The operand numbers of an instruction (a field its format does not have counts as 0). -/
def Instr.operands : Instr → Operands
  | .cls u | .ret u => { x := u.toNat }
  | .jp nnn | .call nnn | .ldI nnn | .jpV0 nnn => { nnn := nnn.toNat }
  | .seImm x kk | .sneImm x kk | .ldImm x kk | .addImm x kk | .rnd x kk => { x := x.toNat, kk := kk.toNat }
  | .seReg x y u | .sneReg x y u => { x := x.toNat, y := y.toNat, n := u.toNat }
  | .drw x y n => { x := x.toNat, y := y.toNat, n := n.toNat }
  | .ldReg x y | .orReg x y | .andReg x y | .xorReg x y => { x := x.toNat, y := y.toNat }
  | .addReg x y | .sub x y | .shr x y | .subn x y | .shl x y => { x := x.toNat, y := y.toNat }
  | .skp x | .sknp x | .ldVxDt x | .ldVxK x | .ldDtVx x | .ldStVx x => { x := x.toNat }
  | .addI x | .ldF x | .ldB x | .storeRegs x | .loadRegs x => { x := x.toNat }

/-- An instruction is well formed when each operand fits its field. -/
def Instr.wellFormed (i : Instr) : Bool := i.operands.wellFormed

/-- `STACK_DEPTH` is "any natural number ≥ 1" (R8). -/
def Config.wellFormed (c : Config) : Bool := decide (1 ≤ c.stackDepth)

/-- The most bytes `load` takes: 0xE00, from 0x200 to the end of memory (R232). -/
def imageLimit : Nat := 0xE00

/-- A program image fits memory from 0x200 up (R232). -/
def imageFits (bytes : List Byte) : Bool := decide (bytes.length ≤ imageLimit)

end Sys2Proof
end

