-- ==== Sys2Proof/Machine/HostInterface.lean ====
section
/-!
DEFINITION. The rest of the host interface: reset, load, keys and the read-only queries (spec/70_reset_and_hazards.md
R230 to R246), and a run as a list of host transactions (R6, R221, R254).
-/

namespace Sys2Proof.Machine

/-- `reset()`: every piece of state at its reset value, in place; the random source is left alone (R44, R231; C4). -/
def resetInPlace (s : State) : State := { State.new s.config with draws := s.draws }

/-- `load(bytes)`: copied to 0x200 and up, or `MemoryOutOfBounds` with nothing written (R232). -/
def load (bytes : List Byte) (s : State) : State × Reply :=
  if imageFits bytes then (writeBytes s programBase bytes, .ok) else (s, .err .memoryOutOfBounds)

/-- `K[k] <- pressed` (R241). -/
def writeKey (s : State) (k : Nibble) (pressed : Bool) : State :=
  { s with keys := s.keys.set k.toNat pressed k.isLt }

/-- Completion of the key-wait: `V[wait_x] <- k`, `waiting <- false` (R192). -/
def completeWait (s : State) (k : Nibble) : State :=
  { writeV s s.waitX (k.setWidth 8) with waiting := false }

/-- `set_key(index, pressed)` (R241): a press while the engine waits completes the wait; a release does not (R192). -/
def setKey (index : Nat) (pressed : Bool) (s : State) : State × Reply :=
  if index ≤ 15 then
    let k := BitVec.ofNat 4 index
    let t := writeKey s k pressed
    (if pressed && t.waiting then completeWait t k else t, .ok)
  else (s, .err (.keyIndexOutOfRange index))

/-! ### Read-only queries -/

/-- `get_key_state(index)` (R242). -/
def getKeyState (s : State) (index : Nat) : Except Fault Bool :=
  if index ≤ 15 then .ok (keyState s (BitVec.ofNat 4 index)) else .error (.keyIndexOutOfRange index)

/-- `get_pixel(x, y)`: 0 or 1; a coordinate outside the grid gives no value (R243). -/
def getPixel (s : State) (x y : Nat) : Option Nat :=
  if h : x < 64 ∧ y < 32 then some (pixel s.fb ⟨x, h.1⟩ ⟨y, h.2⟩).toNat else none

/-- The read-only view of the framebuffer, row by row: pixel `(x, y)` at position `y*64 + x` (R37, R243). -/
def framebufferView (s : State) : List Nat := s.fb.toList.flatMap fun row => row.toList.map Bool.toNat

/-- `get_delay_timer()` (R244). -/
def getDelayTimer (s : State) : Byte := s.dt

/-- `get_sound_timer()` (R244). -/
def getSoundTimer (s : State) : Byte := s.st

/-- `get_registers()`: `V[0]` to `V[15]` (R245). -/
def getRegisters (s : State) : List Byte := s.v.toList

/-- `get_memory()`: `M[0x000]` to `M[0xFFF]` (R245). -/
def getMemory (s : State) : List Byte := readBytes s 0 memSize

/-- `is_waiting()` (R246). -/
def isWaiting (s : State) : Bool := s.waiting

/-- `get_index()` (R246). -/
def getIndex (s : State) : Word := s.i

/-- `get_pc()` (R246). -/
def getPc (s : State) : Word := s.pc

/-- `get_stack()` (R246). -/
def getStack (s : State) : List Word := s.stack

/-! ### Transactions -/

/-- The read-only queries (R242 to R246). -/
inductive Query where
  | keyState (index : Nat)
  | pixel (x y : Nat)
  | framebuffer
  | delayTimer
  | soundTimer
  | registers
  | memory
  | waiting
  | index
  | pc
  | stack
  deriving DecidableEq, Repr

/-- What a query reports: its value, or an error for a key index above 15 (R242), or no value for a coordinate outside
the grid (R243). -/
def answer (q : Query) (s : State) : Reply :=
  match q with
  | .keyState index =>
    match getKeyState s index with
    | .ok pressed => .answer (.flag pressed)
    | .error e => .err e
  | .pixel x y =>
    match getPixel s x y with
    | some p => .answer (.number p)
    | none => .noAnswer
  | .framebuffer => .answer (.numbers (framebufferView s))
  | .delayTimer => .answer (.byte (getDelayTimer s))
  | .soundTimer => .answer (.byte (getSoundTimer s))
  | .registers => .answer (.bytes (getRegisters s))
  | .memory => .answer (.bytes (getMemory s))
  | .waiting => .answer (.flag (isWaiting s))
  | .index => .answer (.word (getIndex s))
  | .pc => .answer (.word (getPc s))
  | .stack => .answer (.words (getStack s))

/-- The host transactions (R6): `tick`, `handle_opcode`, `reset`, `load`, `set_key` and the read-only queries. -/
inductive Transaction where
  | tick
  | handleOpcode (w : Word)
  | reset
  | load (bytes : List Byte)
  | setKey (index : Nat) (pressed : Bool)
  | query (q : Query)
  deriving DecidableEq, Repr

/-- The transaction is one of the read-only queries. -/
def isQuery (q : Transaction) : Bool :=
  match q with
  | .query _ => true
  | .tick => false
  | .handleOpcode _ => false
  | .reset => false
  | .load _ => false
  | .setKey _ _ => false

/-- One transaction: the state it leaves and what it reports (R6, R43). A query changes nothing (R61, R242 to R246). -/
def transact (q : Transaction) (s : State) : State × Reply :=
  match q with
  | .tick => tick s
  | .handleOpcode w => handleOpcode w s
  | .reset => (resetInPlace s, .ok)
  | .load bytes => load bytes s
  | .setKey index pressed => setKey index pressed s
  | .query q => (s, answer q s)

/-- A run: a finite sequence of transactions; its result is the state after the last one, with the outcome of each
(R254). An error does not end it (R211). -/
def runTransactions : List Transaction → State → State × List Reply
  | [], s => (s, [])
  | q :: qs, s =>
    let (t, r) := transact q s
    let (u, rs) := runTransactions qs t
    (u, r :: rs)

end Sys2Proof.Machine
end

