-- ==== Sys2Proof/Safety.lean ====
section
/-!
DEFINITION. The vocabulary claims are stated in: the invariants of the engine, what an instruction leaves unchanged
(its frame), which pixels a sprite targets, and the parked state of spec/70_reset_and_hazards.md R254. A safe run is
one in which every step answers next: no transaction reported an error (spec/60_exceptions.md R213).
-/

namespace Sys2Proof.Machine

/-! ### Invariants -/

/-- Memory is in its canonical form (addresses rising and below 0x1000, no cell equal to its unlisted byte). -/
def memoryWf (s : State) : Prop := Memory.wf (resetByte s.config.font) s.mem = true

/-- What every transaction keeps: canonical memory, and a call stack of at most `STACK_DEPTH` entries (R31). -/
structure Inv (s : State) : Prop where
  memory : memoryWf s
  stack : s.stack.length ≤ s.config.stackDepth

/-- What every tick keeps: `PC` is at most 0x10FE and a return address at most 0x1000, so no write to `PC` wraps
(R107; D13 "`PC` never exceeds 0x10FE"). -/
structure PcInRange (s : State) : Prop where
  pc : s.pc.toNat ≤ 0x10FE
  stack : ∀ a ∈ s.stack, a.toNat ≤ 0x1000

/-! ### Frames -/

/-- What may differ between two states. A field left out of a footprint may not. -/
structure Footprint where
  /-- The general registers that may differ. -/
  regs : Nibble → Prop := fun _ => False
  index : Bool := false
  pc : Bool := false
  stack : Bool := false
  delay : Bool := false
  sound : Bool := false
  screen : Bool := false
  keyWait : Bool := false
  draws : Bool := false
  /-- The bytes stored to are the `storeLen` bytes from address `storeAt` up. -/
  storeAt : Nat := 0
  storeLen : Nat := 0

/-- `t` differs from `s` only where the footprint says so. Key states and parameters never differ. -/
structure Keeps (f : Footprint) (s t : State) : Prop where
  regs : ∀ r, ¬ f.regs r → readV t r = readV s r
  index : f.index = false → t.i = s.i
  pc : f.pc = false → t.pc = s.pc
  stack : f.stack = false → t.stack = s.stack
  delay : f.delay = false → t.dt = s.dt
  sound : f.sound = false → t.st = s.st
  screen : f.screen = false → t.fb = s.fb
  keys : t.keys = s.keys
  keyWait : f.keyWait = false → t.waiting = s.waiting ∧ t.waitX = s.waitX
  memory : ∀ a, (a < f.storeAt ∨ f.storeAt + f.storeLen ≤ a) → readByte t a = readByte s a
  draws : f.draws = false → t.draws = s.draws
  config : t.config = s.config

/-- The registers an instruction names as its destination. (`Fx0A` writes its register when the wait completes, R192.) -/
def destinations : Instr → Nibble → Prop
  | .ldImm x _, r | .addImm x _, r | .rnd x _, r => r = x
  | .ldReg x _, r | .orReg x _, r | .andReg x _, r | .xorReg x _, r => r = x
  | .addReg x _, r | .sub x _, r | .shr x _, r | .subn x _, r | .shl x _, r => r = x
  | .ldVxDt x, r => r = x
  | .loadRegs x, r => r.toNat ≤ x.toNat
  | _, _ => False

/-- The instructions that write `VF` as a side effect (R22). -/
def writesFlag : Instr → Bool
  | .addReg _ _ | .sub _ _ | .shr _ _ | .subn _ _ | .shl _ _ | .drw _ _ _ => true
  | _ => false

/-! ### Sprites -/

/-- A set bit of the sprite of `n` bytes at `I`, drawn at anchor `(cx, cy)`, targets pixel `(px, py)` (R171, R172). -/
def SpriteTargets (s : State) (cx cy n : Nat) (px : Fin 64) (py : Fin 32) : Prop :=
  ∃ c r, c < 8 ∧ r < n ∧ px.val = (cx + c) % 64 ∧ py.val = (cy + r) % 32 ∧
    (readByte s (s.i.toNat + r)).getLsbD (7 - c) = true

/-! ### Runs -/

/-- The word at `PC` is a jump to `PC` itself and the engine is not waiting (R254). -/
def Parked (s : State) : Prop :=
  s.waiting = false ∧ s.pc.toNat ≤ 0xFFE ∧ ∃ nnn : Addr12, nnn.toNat = s.pc.toNat ∧ fetchWord s = 0x1#4 ++ nnn

/-- An outcome with a change made to the next state, if there is one. -/
def mapNext (f : State → State) : Result → Result
  | .next t => .next (f t)
  | .fault e => .fault e
  | .refused e => .refused e

end Sys2Proof.Machine
end

