-- ==== Sys2Proof/Certificates/Slice0/Obligations.lean ====
section
/-!
DEFINITION. The statements about the engine. Each is over every state, every operand and every value of the
parameters of spec/00_scope.md R8 (they stand in the state), unless it says otherwise. A statement about the bytes of
memory after a store assumes the canonical form of memory (`memoryWf`), which every transaction keeps
(`TransactionsKeepInvariant`). Where a clause rests on a choice the spec marks as its own, the docstring names it.
-/

section

open Sys2Proof Sys2Proof.Machine

/-! ### Encoding -/

/-- Every instruction's word decodes to it, whatever bytes follow. (R70, R72, R84; the bit patterns are the spec's
general knowledge, R85, log entry 7.) -/
def Obligations.DecodeOfEncodeGivesInstruction : Prop :=
  ∀ i : Instr, i.wellFormed = true →
    decodeWord (encode i) = .ok i ∧ ∀ rest, decodeBytes (encodeBytes i ++ rest) = .ok (i, rest)

/-- Every legal word is the encoding of the one instruction it decodes to: no bit of it is lost (log entry 8). -/
def Obligations.EncodeOfDecodeGivesWord : Prop :=
  ∀ (w : Word) (i : Instr), decodeWord w = .ok i → encode i = w

/-- The dispatch of R75 to R79 and R83 and the mask / match map of R84 say the same: a word decodes to an instruction
whose row takes it in, and a word that some row takes in decodes to an instruction of that row. -/
def Obligations.DecodeFollowsOpcodeMap : Prop :=
  ∀ w : Word,
    (∀ i, decodeWord w = .ok i → (opcodeRow i).admits w = true) ∧
    (∀ j, (opcodeRow j).admits w = true → ∃ i, decodeWord w = .ok i ∧ opcodeRow i = opcodeRow j)

/-- The illegal encodings are exactly those of R86, and executing one raises `InvalidOpcode(w)` in every state.
(Ignored bits are the spec's choice D2, D3; sub-opcode values its general knowledge, R85.) -/
def Obligations.IllegalWordsAreExactlyTheListed : Prop :=
  ∀ w : Word,
    (decodeWord w = .error (.invalidOpcode w) ↔
      (w.toNat / 4096 = 0x0 ∧ w.toNat % 256 ≠ 0xE0 ∧ w.toNat % 256 ≠ 0xEE) ∨
      (w.toNat / 4096 = 0x8 ∧ ((0x8 ≤ w.toNat % 16 ∧ w.toNat % 16 ≤ 0xD) ∨ w.toNat % 16 = 0xF)) ∨
      (w.toNat / 4096 = 0xE ∧ w.toNat % 256 ≠ 0x9E ∧ w.toNat % 256 ≠ 0xA1) ∨
      (w.toNat / 4096 = 0xF ∧ w.toNat % 256 ∉ [0x07, 0x0A, 0x15, 0x18, 0x1E, 0x29, 0x33, 0x55, 0x65])) ∧
    (decodeWord w = .error (.invalidOpcode w) → ∀ s, executeWord w s = .fault (.invalidOpcode w))

/-- The fields of a word, as numbers (R71). -/
def Obligations.FieldsAreTheBitsOfTheWord : Prop :=
  ∀ w : Word,
    (fields w).op.toNat = w.toNat / 4096 ∧ (fields w).x.toNat = w.toNat / 256 % 16 ∧
    (fields w).y.toNat = w.toNat / 16 % 16 ∧ (fields w).n.toNat = w.toNat % 16 ∧
    (fields w).kk.toNat = w.toNat % 256 ∧ (fields w).nnn.toNat = w.toNat % 4096

/-- Words written out by hand decode to the instructions they stand for. 0x6A42, 0x8234, 0xD221 and 0xF529 are of the
patterns the source pins (R85); the patterns of 0x00E0, 0x2210, 0xE19E and 0xFF65 are the spec's general knowledge,
so presumed (R85, log entry 7). -/
def Obligations.KnownWordsDecode : Prop :=
  decodeWord 0x6A42#16 = .ok (.ldImm 10#4 0x42#8) ∧ decodeWord 0x8234#16 = .ok (.addReg 2#4 3#4) ∧
  decodeWord 0xD221#16 = .ok (.drw 2#4 2#4 1#4) ∧ decodeWord 0xF529#16 = .ok (.ldF 5#4) ∧
  decodeWord 0x00E0#16 = .ok (.cls 0#4) ∧ decodeWord 0x2210#16 = .ok (.call 0x210#12) ∧
  decodeWord 0xE19E#16 = .ok (.skp 1#4) ∧ decodeWord 0xFF65#16 = .ok (.loadRegs 15#4)

/-- Every word selects exactly one instruction, the same in every state, or raises `InvalidOpcode(w)` (R82). -/
def Obligations.EveryWordSelectsOneInstructionOrIsInvalid : Prop :=
  ∀ w : Word,
    (∃ i, decodeWord w = .ok i ∧ (∀ j, decodeWord w = .ok j → j = i) ∧ ∀ s, executeWord w s = exec i s) ∨
    (decodeWord w = .error (.invalidOpcode w) ∧ ∀ s, executeWord w s = .fault (.invalidOpcode w))

/-! ### The execution cycle -/

/-- A tick runs the decoded instruction: when the engine is not waiting and the two bytes at `PC` lie in memory and
decode to `i`, the step is `exec i` with `PC` advanced by 2, and the timers counted down after it (R80; the fetch check
and the waiting tick are the spec's choices D7, D15, D16). -/
def Obligations.StepRunsDecodedInstruction : Prop :=
  ∀ (s : State) (i : Instr), s.waiting = false → s.pc.toNat + 1 ≤ 0xFFF →
    decodeBytes [readByte s s.pc.toNat, readByte s (s.pc.toNat + 1)] = .ok (i, []) → i.wellFormed = true →
    step s =
      match exec i { s with pc := s.pc + 2#16 } with
      | .next t => .next (decrementTimers t)
      | .fault e => .fault e
      | .refused r => .refused r

/-- Instructions are big-endian: the fetched word is the byte at `PC` in bits 15:8 and the byte at `PC + 1` in bits 7:0,
and a program loaded as big-endian words is fetched as those words (R52). -/
def Obligations.FetchIsBigEndian : Prop :=
  (∀ s : State,
    (fetchWord s).toNat = ((readByte s s.pc.toNat).toNat <<< 8) ||| (readByte s (s.pc.toNat + 1)).toNat) ∧
  (∀ (s : State) (ws : List Word), memoryWf s → 2 * ws.length ≤ 0xE00 →
    ∃ t, load (ws.flatMap fun w => [w.extractLsb' 8 8, w.extractLsb' 0 8]) s = (t, .ok) ∧
      ∀ (k : Nat) (h : k < ws.length), fetchWord { t with pc := BitVec.ofNat 16 (0x200 + 2 * k) } = ws[k])

/-- Every tick that reports no error ends by counting both timers down by one, never below 0, and does nothing else
after its instruction (R193, R214; that a waiting tick counts too is the spec's choice D15). -/
def Obligations.EveryTickCountsBothTimersDown : Prop :=
  ∀ s t : State, step s = .next t →
    ∃ u, ((s.waiting = true ∧ u = s) ∨
        (s.waiting = false ∧ ∃ i, decodeWord (fetchWord s) = .ok i ∧ exec i { s with pc := s.pc + 2#16 } = .next u)) ∧
      t.dt.toNat = u.dt.toNat - 1 ∧ t.st.toNat = u.st.toNat - 1 ∧ Keeps { delay := true, sound := true } u t

/-- While the engine waits for a key, any number of ticks completes and changes the timers alone (R80, R214, R220; the
spec's choices D15, D16). -/
def Obligations.WaitingTicksOnlyCountTimers : Prop :=
  ∀ (s : State) (k : Nat), s.waiting = true →
    ∃ t : State, Host.Core.run Sys2Proof.core k s = .next t ∧ t.dt.toNat = s.dt.toNat - k ∧ t.st.toNat = s.st.toNat - k ∧
      Keeps { delay := true, sound := true } s t

/-- A parked engine stays parked: any number of ticks completes and changes the timers alone (R254, the spec's
definition D30; `Parked` asks in addition that the jump word lies in memory). -/
def Obligations.ParkedEngineChangesOnlyTimers : Prop :=
  ∀ (s : State) (k : Nat), Parked s →
    ∃ t : State, Host.Core.run Sys2Proof.core k s = .next t ∧ Parked t ∧
      t.dt.toNat = s.dt.toNat - k ∧ t.st.toNat = s.st.toNat - k ∧ Keeps { delay := true, sound := true } s t

/-! ### Errors -/

/-- The state an error leaves: an error of the fetch leaves the state before the tick, any other error of a tick that
state with `PC` advanced by 2, and an error of `handle_opcode` the state before the call (R206, the spec's choice D6;
the fetch check is D7). A tick reports nothing but success or an error. -/
def Obligations.ErrorsLeaveAPreciseState : Prop :=
  (∀ s : State, s.waiting = false → 0xFFF < s.pc.toNat + 1 → tick s = (s, .err .memoryOutOfBounds)) ∧
  (∀ (s t : State) (e : Fault), tick s = (t, .err e) →
    s.waiting = false ∧
      ((0xFFF < s.pc.toNat + 1 ∧ t = s) ∨ (s.pc.toNat + 1 ≤ 0xFFF ∧ t = { s with pc := s.pc + 2#16 }))) ∧
  (∀ (s t : State) (w : Word) (e : Fault), handleOpcode w s = (t, .err e) → t = s) ∧
  (∀ (s : State) (w : Word) (r : Refusal), (tick s).2 ≠ .unmodelled r ∧ (handleOpcode w s).2 ≠ .unmodelled r)

/-- `handle_opcode(w)` executes the word on the current state, waiting or not, and leaves what the instruction leaves:
it does not fetch, advance `PC` or count the timers down (R81, the spec's choice D18). -/
def Obligations.HandleOpcodeIsExecuteAlone : Prop :=
  ∀ (s t : State) (w : Word) (i : Instr), decodeWord w = .ok i → exec i s = .next t → handleOpcode w s = (t, .ok)

/-- Which instruction raises which error, and when: the table of R207 (its key row under the parameter of D9, its
stack bound the parameter of D1, its range checks D6). Every other instruction raises none, and none is refused. -/
def Obligations.InstructionErrorsAreExactlyTheTable : Prop :=
  ∀ (i : Instr) (s : State) (e : Fault),
    (exec i s = .fault e ↔
      (e = .stackUnderflow ∧ s.stack = [] ∧ ∃ u, i = .ret u) ∨
      (e = .stackOverflow ∧ s.stack.length = s.config.stackDepth ∧ ∃ nnn, i = .call nnn) ∨
      (e = .memoryOutOfBounds ∧
        ((∃ x y n, i = .drw x y n ∧ 0 < n.toNat ∧ 0xFFF < s.i.toNat + n.toNat - 1) ∨
          (∃ x, i = .ldB x ∧ 0xFFF < s.i.toNat + 2) ∨
          (∃ x, (i = .storeRegs x ∨ i = .loadRegs x) ∧ 0xFFF < s.i.toNat + x.toNat))) ∨
      (s.config.keyIndexMode = .fault ∧ ∃ x, (i = .skp x ∨ i = .sknp x) ∧ 15 < (readV s x).toNat ∧
        e = .keyIndexOutOfRange (readV s x).toNat)) ∧
    ∀ r, exec i s ≠ .refused r

/-- `StackUnderflow` is raised by `00EE` when the stack is empty and by nothing else: no other instruction, and no
transaction but a tick or a `handle_opcode` that runs `00EE` (R202). -/
def Obligations.StackUnderflowOnlyFromReturn : Prop :=
  (∀ (i : Instr) (s : State), exec i s = .fault .stackUnderflow ↔ s.stack = [] ∧ ∃ u, i = .ret u) ∧
  (∀ (q : Transaction) (s : State), (transact q s).2 = .err .stackUnderflow →
    s.stack = [] ∧ ∃ u,
      (q = .tick ∧ decodeWord (fetchWord s) = .ok (.ret u)) ∨ ∃ w, q = .handleOpcode w ∧ decodeWord w = .ok (.ret u))

/-! ### Invariants -/

/-- Every step keeps the canonical form of memory and the bound of the call stack (R31, R32). -/
def Obligations.StepKeepsInvariant : Prop :=
  ∀ s t : State, Inv s → step s = .next t → Inv t

/-- After any list of host transactions, errors among them, the invariant holds if it held before; so it holds of
every state an engine can reach (R31, R32, R221). -/
def Obligations.TransactionsKeepInvariant : Prop :=
  (∀ (qs : List Transaction) (s : State), Inv s → Inv (runTransactions qs s).1) ∧
  (∀ (qs : List Transaction) (c : Config), Inv (runTransactions qs (State.new c)).1)

/-- The state after reset meets both invariants, for every value of the parameters. -/
def Obligations.ResetMeetsInvariants : Prop :=
  Inv State.reset ∧ PcInRange State.reset ∧ ∀ c : Config, Inv (State.new c) ∧ PcInRange (State.new c)

/-- Under ticks `PC` never exceeds 0x10FE and a return address never exceeds 0x1000 (R107; the spec's D13). -/
def Obligations.StepKeepsPcInRange : Prop :=
  ∀ s t : State, PcInRange s → step s = .next t → PcInRange t

/-! ### Rules of the whole machine -/

/-- No instruction and no tick writes a key state; among the host's transactions only `set_key` and `reset` can, and
`set_key` writes the one it names (R39). -/
def Obligations.KeysChangeOnlyByHost : Prop :=
  (∀ (i : Instr) (s t : State), exec i s = .next t → t.keys = s.keys) ∧
  (∀ (q : Transaction) (s : State), (transact q s).1.keys ≠ s.keys →
    q = .reset ∨ ∃ k p, q = .setKey k p) ∧
  (∀ (s : State) (k : Fin 16) (p : Bool) (j : Fin 16),
    (setKey k.val p s).1.keys[j.val] = if j = k then p else s.keys[j.val])

/-- The instructions that write `VF` as a side effect are exactly `8xy4`, `8xy5`, `8xy6`, `8xy7`, `8xyE` and `Dxyn`: an
instruction that does not name `VF` as its destination can change it only if it is one of these, each of these can,
and each leaves 0 or 1 there, `VF` being the destination or not (R22; for `x = 15` the spec's choice D4). -/
def Obligations.FlagSideEffectsAreExactlyTheListed : Prop :=
  (∀ i : Instr, ¬ destinations i flagReg →
    ((∃ s t, exec i s = .next t ∧ readV t flagReg ≠ readV s flagReg) ↔ writesFlag i = true)) ∧
  (∀ (i : Instr) (s t : State), writesFlag i = true → exec i s = .next t →
    readV t flagReg = 0#8 ∨ readV t flagReg = 1#8)

/-- Each piece of state has its writers: an instruction that is not among them leaves it as it was (R24, R27, R30, R34,
R35, R36, R40; the draw counter is the model's own, log entry 5). -/
def Obligations.EachPieceOfStateHasItsWriters : Prop :=
  ∀ (i : Instr) (s t : State), exec i s = .next t →
    (t.i ≠ s.i → (∃ nnn, i = .ldI nnn) ∨ ∃ x, i = .addI x ∨ i = .ldF x ∨ i = .storeRegs x ∨ i = .loadRegs x) ∧
    (t.pc ≠ s.pc →
      (∃ nnn, i = .jp nnn ∨ i = .call nnn ∨ i = .jpV0 nnn) ∨ (∃ u, i = .ret u) ∨
      (∃ x kk, i = .seImm x kk ∨ i = .sneImm x kk) ∨ (∃ x y u, i = .seReg x y u ∨ i = .sneReg x y u) ∨
      ∃ x, i = .skp x ∨ i = .sknp x) ∧
    (t.stack ≠ s.stack → (∃ nnn, i = .call nnn) ∨ ∃ u, i = .ret u) ∧
    (t.dt ≠ s.dt → ∃ x, i = .ldDtVx x) ∧ (t.st ≠ s.st → ∃ x, i = .ldStVx x) ∧
    (t.fb ≠ s.fb → (∃ u, i = .cls u) ∨ ∃ x y n, i = .drw x y n) ∧
    (t.waiting ≠ s.waiting ∨ t.waitX ≠ s.waitX → ∃ x, i = .ldVxK x) ∧
    (t.draws ≠ s.draws → ∃ x kk, i = .rnd x kk) ∧
    t.config = s.config

/-- A general register changes only if the instruction names it as its destination, or it is `VF` and the instruction
writes the flag (R22, R23). -/
def Obligations.RegistersChangeOnlyAsDestinationOrFlag : Prop :=
  ∀ (i : Instr) (s t : State) (r : Nibble), exec i s = .next t → readV t r ≠ readV s r →
    destinations i r ∨ (r = flagReg ∧ writesFlag i = true)

/-- Memory is written by `Fx33` and `Fx55` alone, `Fx33` at the three bytes from `I`, `Fx55` at the `x + 1` bytes from
`I`, where `I` is as before the instruction; every other byte reads as before (R50, R56). -/
def Obligations.OnlyBcdAndBlockStoreWriteMemory : Prop :=
  ∀ (i : Instr) (s t : State), memoryWf s → exec i s = .next t → ∀ a,
    readByte t a ≠ readByte s a →
      (∃ x, i = .ldB x ∧ dataAddress s ≤ a ∧ a < dataAddress s + 3) ∨
      (∃ x, i = .storeRegs x ∧ dataAddress s ≤ a ∧ a < dataAddress s + (x.toNat + 1))

/-- `I` is read by `Dxyn`, `Fx1E`, `Fx33`, `Fx55` and `Fx65` alone: with another value in `I`, any other instruction
does the same, and carries that value along unless it is `Annn` or `Fx29`, which replace it (R24). -/
def Obligations.IndexIsReadOnlyByItsReaders : Prop :=
  ∀ (s : State) (w : Word),
    (∀ nnn, exec (.ldI nnn) (setI s w) = exec (.ldI nnn) s) ∧
    (∀ x, exec (.ldF x) (setI s w) = exec (.ldF x) s) ∧
    (∀ i : Instr, (∀ nnn, i ≠ .ldI nnn) → (∀ x, i ≠ .ldF x) → (∀ x y n, i ≠ .drw x y n) →
      (∀ x, i ≠ .addI x ∧ i ≠ .ldB x ∧ i ≠ .storeRegs x ∧ i ≠ .loadRegs x) →
      exec i (setI s w) = mapNext (fun t => setI t w) (exec i s))

/-- No instruction reads the sound timer or the key-wait state; none but `Fx07` reads the delay timer; none but `Ex9E`
and `ExA1` reads a key state: with another value there, an instruction does the same, and carries the value along
unless it is the one that replaces it (R34, R35, R38, R40). -/
def Obligations.TimersKeysAndWaitAreReadOnlyByTheirReaders : Prop :=
  ∀ (i : Instr) (s : State),
    (∀ v, (∀ x, i ≠ .ldStVx x) → exec i { s with st := v } = mapNext (fun t => { t with st := v }) (exec i s)) ∧
    (∀ v x, i = .ldStVx x → exec i { s with st := v } = exec i s) ∧
    (∀ v, (∀ x, i ≠ .ldVxDt x ∧ i ≠ .ldDtVx x) →
      exec i { s with dt := v } = mapNext (fun t => { t with dt := v }) (exec i s)) ∧
    (∀ v x, i = .ldDtVx x → exec i { s with dt := v } = exec i s) ∧
    (∀ ks, (∀ x, i ≠ .skp x ∧ i ≠ .sknp x) →
      exec i { s with keys := ks } = mapNext (fun t => { t with keys := ks }) (exec i s)) ∧
    (∀ b x', (∀ x, i ≠ .ldVxK x) →
      exec i { s with waiting := b, waitX := x' } =
        mapNext (fun t => { t with waiting := b, waitX := x' }) (exec i s)) ∧
    (∀ b x' x, i = .ldVxK x → exec i { s with waiting := b, waitX := x' } = exec i s)

/-- No instruction but `Dxyn` reads a pixel: on another screen, any other instruction does the same, and carries the
screen along unless it is `00E0`, which clears it (R36). -/
def Obligations.ScreenIsReadOnlyByDraw : Prop :=
  ∀ (i : Instr) (s : State) (fb : Framebuffer), (∀ x y n, i ≠ .drw x y n) →
    ((∀ u, i ≠ .cls u) → exec i { s with fb := fb } = mapNext (fun t => { t with fb := fb }) (exec i s)) ∧
    (∀ u, i = .cls u → exec i { s with fb := fb } = exec i s)

/-- No instruction but `Dxyn`, `Fx33`, `Fx55` and `Fx65` touches memory, none but `2nnn` and `00EE` the call stack, and
none but `Cxkk` the count of draws: on another memory, stack or count, any other instruction does the same and carries
that along (R30, R50; the count is the model's own, log entry 5). -/
def Obligations.MemoryStackAndDrawsAreTouchedOnlyByTheirUsers : Prop :=
  ∀ (i : Instr) (s : State),
    (∀ m, (∀ x y n, i ≠ .drw x y n) → (∀ x, i ≠ .ldB x ∧ i ≠ .storeRegs x ∧ i ≠ .loadRegs x) →
      exec i { s with mem := m } = mapNext (fun t => { t with mem := m }) (exec i s)) ∧
    (∀ k, (∀ u, i ≠ .ret u) → (∀ nnn, i ≠ .call nnn) →
      exec i { s with stack := k } = mapNext (fun t => { t with stack := k }) (exec i s)) ∧
    (∀ d, (∀ x kk, i ≠ .rnd x kk) →
      exec i { s with draws := d } = mapNext (fun t => { t with draws := d }) (exec i s))

/-! ### Register load, arithmetic and logic -/

/-- `6xkk` (R122), encoding and effect. -/
def Obligations.LoadImmediateSetsRegister : Prop :=
  ∀ (x : Nibble) (kk : Byte),
    decodeWord (0x6#4 ++ x ++ kk) = .ok (.ldImm x kk) ∧
    ∀ s : State, ∃ t, exec (.ldImm x kk) s = .next t ∧ readV t x = kk ∧ Keeps { regs := fun r => r = x } s t

/-- `7xkk` (R123): the sum modulo 256, and `VF` unchanged unless it is the destination. -/
def Obligations.AddImmediateWrapsWithoutFlag : Prop :=
  ∀ (s : State) (x : Nibble) (kk : Byte),
    ∃ t, exec (.addImm x kk) s = .next t ∧ (readV t x).toNat = ((readV s x).toNat + kk.toNat) % 256 ∧
      Keeps { regs := fun r => r = x } s t

/-- `8xy0` to `8xy3` (R124 to R127), bit by bit; no flag is touched. -/
def Obligations.CopyAndLogicSetRegisterBitwise : Prop :=
  ∀ (s : State) (x y : Nibble),
    (∃ t, exec (.ldReg x y) s = .next t ∧ readV t x = readV s y ∧ Keeps { regs := fun r => r = x } s t) ∧
    (∃ t, exec (.orReg x y) s = .next t ∧
      (∀ b, (readV t x).getLsbD b = ((readV s x).getLsbD b || (readV s y).getLsbD b)) ∧
      Keeps { regs := fun r => r = x } s t) ∧
    (∃ t, exec (.andReg x y) s = .next t ∧
      (∀ b, (readV t x).getLsbD b = ((readV s x).getLsbD b && (readV s y).getLsbD b)) ∧
      Keeps { regs := fun r => r = x } s t) ∧
    (∃ t, exec (.xorReg x y) s = .next t ∧
      (∀ b, (readV t x).getLsbD b = ((readV s x).getLsbD b ^^ (readV s y).getLsbD b)) ∧
      Keeps { regs := fun r => r = x } s t)

/-- `8xy4` (R128): the sum modulo 256 and the carry; operands are read first and the flag is written last, so for
`x = 15` the flag stays (R121, the spec's choice D4). -/
def Obligations.AddRegistersSetsSumAndCarry : Prop :=
  ∀ (s : State) (x y : Nibble),
    ∃ t, exec (.addReg x y) s = .next t ∧
      (readV t flagReg).toNat = (if 256 ≤ (readV s x).toNat + (readV s y).toNat then 1 else 0) ∧
      (x ≠ flagReg → (readV t x).toNat = ((readV s x).toNat + (readV s y).toNat) % 256) ∧
      Keeps { regs := fun r => r = x ∨ r = flagReg } s t

/-- `8xy5` and `8xy7` (R129, R131): the difference modulo 256 and NOT borrow (flag order for `x = 15`: D4). -/
def Obligations.SubtractSetsDifferenceAndNoBorrow : Prop :=
  ∀ (s : State) (x y : Nibble),
    (∃ t, exec (.sub x y) s = .next t ∧
      (readV t flagReg).toNat = (if (readV s x).toNat ≥ (readV s y).toNat then 1 else 0) ∧
      (x ≠ flagReg → (readV t x).toNat = ((readV s x).toNat + 256 - (readV s y).toNat) % 256) ∧
      Keeps { regs := fun r => r = x ∨ r = flagReg } s t) ∧
    (∃ t, exec (.subn x y) s = .next t ∧
      (readV t flagReg).toNat = (if (readV s y).toNat ≥ (readV s x).toNat then 1 else 0) ∧
      (x ≠ flagReg → (readV t x).toNat = ((readV s y).toNat + 256 - (readV s x).toNat) % 256) ∧
      Keeps { regs := fun r => r = x ∨ r = flagReg } s t)

/-- `8xy6` and `8xyE` (R130, R132): one bit shifted out into `VF`; `V[y]` plays no part, so every `y` gives the same
(flag order for `x = 15`: D4). -/
def Obligations.ShiftsMoveOneBitIntoFlag : Prop :=
  ∀ (s : State) (x y : Nibble),
    (∃ t, (∀ y', exec (.shr x y') s = .next t) ∧ exec (.shr x y) s = .next t ∧
      (readV t flagReg).toNat = (readV s x).toNat % 2 ∧
      (x ≠ flagReg → (readV t x).toNat = (readV s x).toNat / 2) ∧
      Keeps { regs := fun r => r = x ∨ r = flagReg } s t) ∧
    (∃ t, (∀ y', exec (.shl x y') s = .next t) ∧ exec (.shl x y) s = .next t ∧
      (readV t flagReg).toNat = (readV s x).toNat / 128 ∧
      (x ≠ flagReg → (readV t x).toNat = (readV s x).toNat * 2 % 256) ∧
      Keeps { regs := fun r => r = x ∨ r = flagReg } s t)

/-- `Cxkk` (R133): one draw is taken, whatever `kk` is, and the register is the drawn byte masked by `kk`. The byte is
the free value `Config.rand8` (D17, log entry 5): nothing is claimed of it. -/
def Obligations.RandomIsOneMaskedDraw : Prop :=
  ∀ (s : State) (x : Nibble) (kk : Byte),
    ∃ t, exec (.rnd x kk) s = .next t ∧ t.draws = s.draws + 1 ∧
      (∀ b, (readV t x).getLsbD b = ((Config.rand8 s.draws).getLsbD b && kk.getLsbD b)) ∧
      (readV t x).toNat ≤ kk.toNat ∧
      Keeps { regs := fun r => r = x, draws := true } s t

/-! ### Control flow -/

/-- The four register skips (R103 to R106): 2 is added to `PC`, modulo 2^16, exactly when the condition holds; the low
nibble of the register forms is ignored (R83, the spec's choice D3; the wrap is D13). -/
def Obligations.SkipsAddTwoExactlyOnCondition : Prop :=
  ∀ s : State,
    (∀ x kk, ∃ t, exec (.seImm x kk) s = .next t ∧
      t.pc.toNat = (if readV s x = kk then (s.pc.toNat + 2) % 65536 else s.pc.toNat) ∧ Keeps { pc := true } s t) ∧
    (∀ x kk, ∃ t, exec (.sneImm x kk) s = .next t ∧
      t.pc.toNat = (if readV s x = kk then s.pc.toNat else (s.pc.toNat + 2) % 65536) ∧ Keeps { pc := true } s t) ∧
    (∀ x y, ∃ t, (∀ u, exec (.seReg x y u) s = .next t) ∧
      t.pc.toNat = (if readV s x = readV s y then (s.pc.toNat + 2) % 65536 else s.pc.toNat) ∧
      Keeps { pc := true } s t) ∧
    (∀ x y, ∃ t, (∀ u, exec (.sneReg x y u) s = .next t) ∧
      t.pc.toNat = (if readV s x = readV s y then s.pc.toNat else (s.pc.toNat + 2) % 65536) ∧
      Keeps { pc := true } s t)

/-- `1nnn` and `Bnnn` (R101, R107): the target replaces `PC`; the offset sum is at most 0x10FE and is not truncated. -/
def Obligations.JumpsReplaceProgramCounter : Prop :=
  ∀ (s : State) (nnn : Addr12),
    (∃ t, exec (.jp nnn) s = .next t ∧ t.pc.toNat = nnn.toNat ∧ Keeps { pc := true } s t) ∧
    (∃ t, exec (.jpV0 nnn) s = .next t ∧ t.pc.toNat = nnn.toNat + (readV s 0#4).toNat ∧ t.pc.toNat ≤ 0x10FE ∧
      Keeps { pc := true } s t)

/-- `2nnn` (R102): the `PC` it sees is pushed and the target replaces it; with `STACK_DEPTH` entries it raises
`StackOverflow` (the bound is the parameter of D1). -/
def Obligations.CallPushesAndJumps : Prop :=
  ∀ (s : State) (nnn : Addr12),
    (s.stack.length ≠ s.config.stackDepth →
      ∃ t, exec (.call nnn) s = .next t ∧ t.stack = s.stack ++ [s.pc] ∧ t.pc.toNat = nnn.toNat ∧
        Keeps { pc := true, stack := true } s t) ∧
    (s.stack.length = s.config.stackDepth → exec (.call nnn) s = .fault .stackOverflow)

/-- `00EE` (R100): the last entry is popped into `PC` as it is; an empty stack raises `StackUnderflow`. -/
def Obligations.ReturnPopsIntoProgramCounter : Prop :=
  ∀ (s : State) (u : Nibble),
    (∀ rest a, s.stack = rest ++ [a] →
      ∃ t, exec (.ret u) s = .next t ∧ t.pc = a ∧ t.stack = rest ∧ Keeps { pc := true, stack := true } s t) ∧
    (s.stack = [] → exec (.ret u) s = .fault .stackUnderflow)

/-- Call then return (R109): a callee that leaves the stack as it found it returns to the `PC` the call saw, with the
stack as before the call. -/
def Obligations.CallThenReturnRestores : Prop :=
  ∀ (s : State) (nnn : Addr12), s.stack.length ≠ s.config.stackDepth →
    ∃ t, exec (.call nnn) s = .next t ∧
      ∀ (callee : State) (u : Nibble), callee.stack = t.stack →
        ∃ r, exec (.ret u) callee = .next r ∧ r.pc = s.pc ∧ r.stack = s.stack

/-! ### Index register and memory -/

/-- `Annn`, `Fx1E`, `Fx29` (R150 to R152): `I` set, added to modulo 2^16 with `VF` untouched (D11, D12), and set to the
glyph address under either font digit mode (D10). -/
def Obligations.IndexLoadsAddAndGlyph : Prop :=
  ∀ s : State,
    (∀ nnn, ∃ t, exec (.ldI nnn) s = .next t ∧ t.i.toNat = nnn.toNat ∧ Keeps { index := true } s t) ∧
    (∀ x, ∃ t, exec (.addI x) s = .next t ∧ t.i.toNat = (s.i.toNat + (readV s x).toNat) % 65536 ∧
      Keeps { index := true } s t) ∧
    (∀ x, ∃ t, exec (.ldF x) s = .next t ∧
      t.i.toNat = 0x50 + 5 * (if s.config.fontDigitMode = .lowNibble then (readV s x).toNat % 16 else (readV s x).toNat) ∧
      Keeps { index := true } s t)

/-- `Fx33` (R153): three decimal digits at `I`, `I + 1`, `I + 2`; `I` is unchanged (D32). -/
def Obligations.BcdWritesThreeDigits : Prop :=
  ∀ (s : State) (x : Nibble), memoryWf s → s.i.toNat + 2 ≤ 0xFFF →
    ∃ t, exec (.ldB x) s = .next t ∧
      100 * (readByte t (dataAddress s)).toNat + 10 * (readByte t (dataAddress s + 1)).toNat
        + (readByte t (dataAddress s + 2)).toNat = (readV s x).toNat ∧
      (readByte t (dataAddress s + 1)).toNat ≤ 9 ∧ (readByte t (dataAddress s + 2)).toNat ≤ 9 ∧
      Keeps { storeAt := dataAddress s, storeLen := 3 } s t

/-- `Fx55` (R154): `V[0]` to `V[x]` at `I` and up, and `I` advanced by `x + 1`. -/
def Obligations.BlockStoreWritesRegisters : Prop :=
  ∀ (s : State) (x : Nibble), memoryWf s → s.i.toNat + x.toNat ≤ 0xFFF →
    ∃ t, exec (.storeRegs x) s = .next t ∧
      (∀ r : Nibble, r.toNat ≤ x.toNat → readByte t (dataAddress s + r.toNat) = readV s r) ∧
      t.i.toNat = s.i.toNat + x.toNat + 1 ∧
      Keeps { index := true, storeAt := dataAddress s, storeLen := x.toNat + 1 } s t

/-- `Fx65` (R155): `V[0]` to `V[x]` from `I` and up, and `I` advanced by `x + 1`; registers above `x` are unchanged. -/
def Obligations.BlockLoadReadsRegisters : Prop :=
  ∀ (s : State) (x : Nibble), s.i.toNat + x.toNat ≤ 0xFFF →
    ∃ t, exec (.loadRegs x) s = .next t ∧
      (∀ r : Nibble, r.toNat ≤ x.toNat → readV t r = readByte s (dataAddress s + r.toNat)) ∧
      t.i.toNat = s.i.toNat + x.toNat + 1 ∧
      Keeps { regs := fun r => r.toNat ≤ x.toNat, index := true } s t

/-- Storing registers 0 to `x` and loading them from the same region gives the same registers, and `I` advances by
`x + 1` both times (R157), whatever happened in between that left memory alone and set `I` back. -/
def Obligations.BlockStoreThenLoadRoundTrips : Prop :=
  ∀ (s : State) (x : Nibble), memoryWf s → s.i.toNat + x.toNat ≤ 0xFFF →
    ∃ t, exec (.storeRegs x) s = .next t ∧ t.i.toNat = s.i.toNat + x.toNat + 1 ∧
      ∀ w : State, w.i = s.i → (∀ a, readByte w a = readByte t a) →
        ∃ r, exec (.loadRegs x) w = .next r ∧ r.i = t.i ∧
          ∀ k : Nibble, k.toNat ≤ x.toNat → readV r k = readV s k

/-- A store is seen by the next fetch: a word that `Fx55` has written under `PC` is the instruction the next tick runs.
That nothing is fetched ahead is the spec's choice (R64 carries its decision D20; log entry 20). -/
def Obligations.StoredWordIsExecutedNext : Prop :=
  ∀ (s t : State) (x a : Nibble) (i : Instr), memoryWf s → exec (.storeRegs x) s = .next t → t.waiting = false →
    t.pc.toNat = dataAddress s + a.toNat → a.toNat + 1 ≤ x.toNat →
    decodeWord (readV s a ++ readV s (a + 1#4)) = .ok i →
    step (decrementTimers t) = finishTick (exec i (advancePc (decrementTimers t)))

/-! ### Display -/

/-- `00E0` (R170): every pixel 0, and nothing else changes; bits 11:8 of the word are ignored (D2). -/
def Obligations.ClearScreenZeroesEveryPixel : Prop :=
  ∀ s : State, ∃ t, (∀ u, exec (.cls u) s = .next t) ∧ (∀ x y, pixel t.fb x y = false) ∧ Keeps { screen := true } s t

/-- `Dxyn` (R171 to R174): a pixel is flipped exactly when a set sprite bit targets it, coordinates wrapping per pixel
from the anchor that `V[x]` and `V[y]` held before the draw, and `VF` is 1 exactly when a targeted pixel was 1. With
`n = 0` nothing is read. (Anchor read before `VF` is cleared: D5; range check first: D6.) -/
def Obligations.DrawFlipsTargetedPixels : Prop :=
  ∀ (s : State) (x y n : Nibble), (n.toNat = 0 ∨ s.i.toNat + n.toNat - 1 ≤ 0xFFF) →
    ∃ t, exec (.drw x y n) s = .next t ∧
      (∀ px py, pixel t.fb px py = true ↔
        Xor (pixel s.fb px py = true) (SpriteTargets s (readV s x).toNat (readV s y).toNat n.toNat px py)) ∧
      (readV t flagReg = 0#8 ∨ readV t flagReg = 1#8) ∧
      (readV t flagReg = 1#8 ↔
        ∃ px py, SpriteTargets s (readV s x).toNat (readV s y).toNat n.toNat px py ∧ pixel s.fb px py = true) ∧
      Keeps { regs := fun r => r = flagReg, screen := true } s t

/-- The laws of R175, for every `x` and `y`: for 15 the anchor is what `VF` held before the draw cleared it (the spec's
choice D5, log entry 10), and the range check comes first (D6, log entry 13). (a) A draw whose targets are all 0 leaves `VF = 0`. (b) A second draw of the same sprite at the
same anchor restores every pixel, and leaves `VF = 1` exactly when some target was 0 before the first draw. -/
def Obligations.DrawTwiceRestoresEveryPixel : Prop :=
  ∀ (s : State) (x y n : Nibble), (n.toNat = 0 ∨ s.i.toNat + n.toNat - 1 ≤ 0xFFF) →
    ∃ t, exec (.drw x y n) s = .next t ∧
      ((∀ px py, SpriteTargets s (readV s x).toNat (readV s y).toNat n.toNat px py → pixel s.fb px py = false) →
        readV t flagReg = 0#8) ∧
      ∀ (u : State) (x' y' : Nibble), u.fb = t.fb → u.i = s.i → (∀ a, readByte u a = readByte s a) →
        readV u x' = readV s x → readV u y' = readV s y →
        ∃ w, exec (.drw x' y' n) u = .next w ∧ w.fb = s.fb ∧
          (readV w flagReg = 1#8 ↔
            ∃ px py, SpriteTargets s (readV s x).toNat (readV s y).toNat n.toNat px py ∧ pixel s.fb px py = false)

/-! ### Keys and timers -/

/-- `Ex9E` and `ExA1` (R185 to R187): the key tested is the value of `V[x]`, or its low nibble under
`KEY_INDEX_MODE = low_nibble`; above 15 under `fault` the instruction raises `KeyIndexOutOfRange` (the spec's D9). -/
def Obligations.KeySkipsTestTheNamedKey : Prop :=
  ∀ (s : State) (x : Nibble),
    (∀ k : Fin 16,
      (readV s x).toNat = k.val ∨ (s.config.keyIndexMode = .lowNibble ∧ (readV s x).toNat % 16 = k.val) →
      (∃ t, exec (.skp x) s = .next t ∧
        t.pc.toNat = (if s.keys[k.val] = true then (s.pc.toNat + 2) % 65536 else s.pc.toNat) ∧
        Keeps { pc := true } s t) ∧
      (∃ t, exec (.sknp x) s = .next t ∧
        t.pc.toNat = (if s.keys[k.val] = true then s.pc.toNat else (s.pc.toNat + 2) % 65536) ∧
        Keeps { pc := true } s t)) ∧
    (15 < (readV s x).toNat → s.config.keyIndexMode = .fault →
      exec (.skp x) s = .fault (.keyIndexOutOfRange (readV s x).toNat) ∧
      exec (.sknp x) s = .fault (.keyIndexOutOfRange (readV s x).toNat))

/-- `Fx07`, `Fx15`, `Fx18` (R188, R190, R191): the timer moves, before this tick's decrement. -/
def Obligations.TimerMovesCopyOneByte : Prop :=
  ∀ (s : State) (x : Nibble),
    (∃ t, exec (.ldVxDt x) s = .next t ∧ readV t x = s.dt ∧ Keeps { regs := fun r => r = x } s t) ∧
    (∃ t, exec (.ldDtVx x) s = .next t ∧ t.dt = readV s x ∧ Keeps { delay := true } s t) ∧
    (∃ t, exec (.ldStVx x) s = .next t ∧ t.st = readV s x ∧ Keeps { sound := true } s t)

/-- A tick that runs `Fx15` leaves `max(V[x] - 1, 0)` in the delay timer, and one that runs `Fx18` the same in the sound
timer (R190, R191, R193). -/
def Obligations.TimerSetTickLeavesOneLess : Prop :=
  ∀ (s : State) (x : Nibble), s.waiting = false → s.pc.toNat + 1 ≤ 0xFFF →
    (decodeWord (fetchWord s) = .ok (.ldDtVx x) →
      ∃ t, step s = .next t ∧ t.dt.toNat = (readV s x).toNat - 1 ∧ t.st.toNat = s.st.toNat - 1 ∧
        t.pc.toNat = s.pc.toNat + 2) ∧
    (decodeWord (fetchWord s) = .ok (.ldStVx x) →
      ∃ t, step s = .next t ∧ t.st.toNat = (readV s x).toNat - 1 ∧ t.dt.toNat = s.dt.toNat - 1 ∧
        t.pc.toNat = s.pc.toNat + 2)

/-- `Fx0A` (R189): the key-wait begins for register `x`; no register is written and `PC` stays (the spec's D14). A key
already held plays no part. -/
def Obligations.KeyWaitBegins : Prop :=
  ∀ (s : State) (x : Nibble),
    ∃ t, exec (.ldVxK x) s = .next t ∧ t.waiting = true ∧ t.waitX = x ∧ Keeps { keyWait := true } s t

/-- `set_key` (R241, R192; the spec's D14, D23): the named key takes the given state; a press while the engine waits
writes the key's index to `V[wait_x]` and ends the wait, a release does not; an index above 15 is an error that changes
nothing. -/
def Obligations.SetKeyCompletesTheWait : Prop :=
  ∀ (s : State) (k : Nat) (p : Bool),
    (k ≤ 15 → ∃ t, setKey k p s = (t, .ok) ∧
      (∀ j : Fin 16, t.keys[j.val] = if j.val = k then p else s.keys[j.val]) ∧
      (if p = true ∧ s.waiting = true then
        t.waiting = false ∧ (readV t s.waitX).toNat = k ∧ ∀ r, r ≠ s.waitX → readV t r = readV s r
       else t.waiting = s.waiting ∧ ∀ r, readV t r = readV s r) ∧
      t.i = s.i ∧ t.pc = s.pc ∧ t.stack = s.stack ∧ t.dt = s.dt ∧ t.st = s.st ∧ t.fb = s.fb ∧ t.waitX = s.waitX ∧
      (∀ a, readByte t a = readByte s a) ∧ t.draws = s.draws ∧ t.config = s.config) ∧
    (15 < k → setKey k p s = (s, .err (.keyIndexOutOfRange k)))

/-! ### Reset, load and the host's queries -/

/-- The state after `new()` and after `reset()`: every piece of state at its value of the table of R44, FONT being the
engine's own parameter. That `reset` clears the keys and leaves the random source alone is the spec's choice D28 (log
entry 20); the count of draws and the parameters it leaves alone are the model's own fields (log entries 5 and 1); and
the byte clause reaches above 0xFFF, where the read of one byte is the model's 0 (log entry 18). -/
def Obligations.ResetGivesTheTabledState : Prop :=
  (∀ s : State, ((∃ c, s = State.new c) ∨ ∃ s₀, s = (transact .reset s₀).1) →
    (∀ r, readV s r = 0#8) ∧ s.i = 0#16 ∧ s.pc = 0x200#16 ∧ s.stack = [] ∧ s.dt = 0#8 ∧ s.st = 0#8 ∧
    (∀ (k : Nat) (h : k < 80), readByte s (0x50 + k) = s.config.font[k]) ∧
    (∀ a, a < 0x50 ∨ 0x9F < a → readByte s a = 0#8) ∧
    (∀ x y, pixel s.fb x y = false) ∧ (∀ k : Fin 16, s.keys[k.val] = false) ∧ s.waiting = false ∧ s.waitX = 0#4) ∧
  (∀ s₀ : State, (transact .reset s₀).2 = .ok ∧ (transact .reset s₀).1.draws = s₀.draws ∧
    (transact .reset s₀).1.config = s₀.config) ∧
  State.reset.pc = 0x200#16

/-- `load` (R232; the oversize case is the spec's D24): the bytes at 0x200 and up and nothing else, or an error that
writes nothing. -/
def Obligations.LoadCopiesTheImage : Prop :=
  ∀ (s : State) (bytes : List Byte), memoryWf s →
    (bytes.length ≤ 0xE00 → ∃ t, load bytes s = (t, .ok) ∧
      (∀ (k : Nat) (h : k < bytes.length), readByte t (0x200 + k) = bytes[k]) ∧
      Keeps { storeAt := 0x200, storeLen := bytes.length } s t) ∧
    (0xE00 < bytes.length → load bytes s = (s, .err .memoryOutOfBounds))

/-- The diagnostic queries: the timers, the 16 registers in order, the 4096 bytes in order (R244, R245). They are
functions of the state that answer no state, so they change none. -/
def Obligations.DiagnosticsGiveTimersRegistersAndMemory : Prop :=
  ∀ s : State,
    getDelayTimer s = s.dt ∧ getSoundTimer s = s.st ∧
    (getRegisters s).length = 16 ∧ (∀ r : Nibble, (getRegisters s)[r.toNat]? = some (readV s r)) ∧
    (getMemory s).length = 4096 ∧ (∀ a, a < 4096 → (getMemory s)[a]? = some (readByte s a))

/-- The other read-only queries give the state they name (R242, R243, R246; out-of-range cases, the view's layout and
the added queries are the spec's D22, D23, D29). -/
def Obligations.QueriesReadTheStateTheyName : Prop :=
  ∀ s : State,
    (framebufferView s).length = 2048 ∧
    (∀ (x : Fin 64) (y : Fin 32), (framebufferView s)[y.val * 64 + x.val]? = some (pixel s.fb x y).toNat ∧
      getPixel s x.val y.val = some (pixel s.fb x y).toNat) ∧
    (∀ x y, (64 ≤ x ∨ 32 ≤ y) → getPixel s x y = none) ∧
    (∀ k : Fin 16, getKeyState s k.val = .ok s.keys[k.val]) ∧
    (∀ k, 15 < k → getKeyState s k = .error (.keyIndexOutOfRange k)) ∧
    isWaiting s = s.waiting ∧ getIndex s = s.i ∧ getPc s = s.pc ∧ getStack s = s.stack

/-- A run is a list of transactions, the read-only queries among them (R6, R254, the spec's D21 and D30). A query reports
the value it names and leaves the state as it was (R242 to R246; errors, refusals and added queries are D22, D23, D29,
log entries 14 and 19); one more transaction acts on the state the run left, and its outcome is reported after the
others; and a run with its queries left out ends in the same state. -/
def Obligations.RunsReportEachOutcomeAndQueriesChangeNothing : Prop :=
  ∀ s : State,
    (∀ k : Fin 16, transact (.query (.keyState k.val)) s = (s, .answer (.flag s.keys[k.val]))) ∧
    (∀ k, 15 < k → transact (.query (.keyState k)) s = (s, .err (.keyIndexOutOfRange k))) ∧
    (∀ (x : Fin 64) (y : Fin 32),
      transact (.query (.pixel x.val y.val)) s = (s, .answer (.number (pixel s.fb x y).toNat))) ∧
    (∀ x y, (64 ≤ x ∨ 32 ≤ y) → transact (.query (.pixel x y)) s = (s, .noAnswer)) ∧
    transact (.query .framebuffer) s = (s, .answer (.numbers (framebufferView s))) ∧
    transact (.query .delayTimer) s = (s, .answer (.byte s.dt)) ∧
    transact (.query .soundTimer) s = (s, .answer (.byte s.st)) ∧
    transact (.query .registers) s = (s, .answer (.bytes (getRegisters s))) ∧
    transact (.query .memory) s = (s, .answer (.bytes (getMemory s))) ∧
    transact (.query .waiting) s = (s, .answer (.flag s.waiting)) ∧
    transact (.query .index) s = (s, .answer (.word s.i)) ∧
    transact (.query .pc) s = (s, .answer (.word s.pc)) ∧
    transact (.query .stack) s = (s, .answer (.words s.stack)) ∧
    (∀ (qs : List Transaction) (q : Transaction),
      runTransactions (qs ++ [q]) s =
        ((transact q (runTransactions qs s).1).1,
          (runTransactions qs s).2 ++ [(transact q (runTransactions qs s).1).2])) ∧
    (∀ qs : List Transaction,
      (runTransactions (qs.filter fun q => !isQuery q) s).1 = (runTransactions qs s).1)

end
end

