-- ==== Sys2Proof/Laws/Encoding.lean ====
section
/-!
SUPPORT. The fields of an encoded word (spec/30_encoding.md R71, R72), and that every instruction is well formed (R74).
-/

namespace Sys2Proof

/-- Every term of `Instr` is well formed: the operand types are the field bounds (R74). -/
theorem Instr.wellFormed_all (i : Instr) : i.wellFormed = true := by
  have h4 : ∀ a : Nibble, a.toNat < 16 := fun a => a.isLt
  have h8 : ∀ a : Byte, a.toNat < 256 := fun a => a.isLt
  have h12 : ∀ a : Addr12, a.toNat < 4096 := fun a => a.isLt
  cases i <;> simp [Instr.wellFormed, Instr.operands, Operands.wellFormed, h4, h8, h12]

theorem fields_encodeRR (op x y n : Nibble) :
    fields (encodeRR op x y n) = { op := op, x := x, y := y, n := n, kk := y ++ n, nnn := x ++ y ++ n } := by
  simp only [fields, encodeRR, Fields.mk.injEq]
  refine ⟨?_, ?_, ?_, ?_, ?_, ?_⟩ <;> ext i hi <;>
    simp [BitVec.getElem_extractLsb'] <;> grind

theorem fields_encodeRI (op x : Nibble) (kk : Byte) :
    fields (encodeRI op x kk) =
      { op := op, x := x, y := kk.extractLsb' 4 4, n := kk.extractLsb' 0 4, kk := kk, nnn := x ++ kk } := by
  simp only [fields, encodeRI, Fields.mk.injEq]
  refine ⟨?_, ?_, ?_, ?_, ?_, ?_⟩ <;> ext i hi <;>
    simp [BitVec.getElem_extractLsb'] <;> grind

theorem fields_encodeA (op : Nibble) (nnn : Addr12) :
    fields (encodeA op nnn) =
      { op := op, x := nnn.extractLsb' 8 4, y := nnn.extractLsb' 4 4, n := nnn.extractLsb' 0 4,
        kk := nnn.extractLsb' 0 8, nnn := nnn } := by
  simp only [fields, encodeA, Fields.mk.injEq]
  refine ⟨?_, ?_, ?_, ?_, ?_, ?_⟩ <;> ext i hi <;>
    simp [BitVec.getElem_extractLsb'] <;> grind

theorem encodeO_eq (u : Nibble) (kk : Byte) : encodeO u kk = encodeRI 0x0#4 u kk := rfl

/-- A word is its `op` field and its `nnn` field. -/
theorem encodeA_fields (w : Word) : encodeA (fields w).op (fields w).nnn = w := by
  ext i hi
  simp [encodeA, fields]
  grind

/-- A word is its `op`, `x` and `kk` fields. -/
theorem encodeRI_fields (w : Word) : encodeRI (fields w).op (fields w).x (fields w).kk = w := by
  ext i hi
  simp [encodeRI, fields]
  grind

/-- A word is its four nibbles. -/
theorem encodeRR_fields (w : Word) : encodeRR (fields w).op (fields w).x (fields w).y (fields w).n = w := by
  ext i hi
  simp [encodeRR, fields]
  grind

end Sys2Proof
end

