-- ==== Sys2Proof/Laws/Decode.lean ====
section
/-!
SUPPORT. What the decoder answers, family by family (spec/30_encoding.md R75 to R79, R83).
-/

namespace Sys2Proof

/-- The last arm of the dispatch is family 0xF (R75). -/
theorem op_eq_F (op : Nibble) (h0 : op ≠ 0x0#4) (h1 : op ≠ 0x1#4) (h2 : op ≠ 0x2#4) (h3 : op ≠ 0x3#4)
    (h4 : op ≠ 0x4#4) (h5 : op ≠ 0x5#4) (h6 : op ≠ 0x6#4) (h7 : op ≠ 0x7#4) (h8 : op ≠ 0x8#4) (h9 : op ≠ 0x9#4)
    (hA : op ≠ 0xA#4) (hB : op ≠ 0xB#4) (hC : op ≠ 0xC#4) (hD : op ≠ 0xD#4) (hE : op ≠ 0xE#4) : op = 0xF#4 := by
  bv_omega

/-- Family 0x0 (R76). -/
theorem decodeFamily0_ok {w : Word} {f : Fields} {i : Instr} :
    decodeFamily0 w f = .ok i ↔ (f.kk = 0xE0#8 ∧ i = .cls f.x) ∨ (f.kk = 0xEE#8 ∧ i = .ret f.x) := by
  unfold decodeFamily0
  split <;> simp_all [eq_comm]

/-- Family 0x8 (R77). -/
theorem decodeFamily8_ok {w : Word} {f : Fields} {i : Instr} :
    decodeFamily8 w f = .ok i ↔
      (f.n = 0x0#4 ∧ i = .ldReg f.x f.y) ∨ (f.n = 0x1#4 ∧ i = .orReg f.x f.y) ∨
      (f.n = 0x2#4 ∧ i = .andReg f.x f.y) ∨ (f.n = 0x3#4 ∧ i = .xorReg f.x f.y) ∨
      (f.n = 0x4#4 ∧ i = .addReg f.x f.y) ∨ (f.n = 0x5#4 ∧ i = .sub f.x f.y) ∨
      (f.n = 0x6#4 ∧ i = .shr f.x f.y) ∨ (f.n = 0x7#4 ∧ i = .subn f.x f.y) ∨
      (f.n = 0xE#4 ∧ i = .shl f.x f.y) := by
  unfold decodeFamily8
  constructor
  · intro h
    split at h <;> simp_all only [Except.ok.injEq, reduceCtorEq, true_and, true_or, or_true, eq_comm]
  · rintro (⟨h, rfl⟩ | ⟨h, rfl⟩ | ⟨h, rfl⟩ | ⟨h, rfl⟩ | ⟨h, rfl⟩ | ⟨h, rfl⟩ | ⟨h, rfl⟩ | ⟨h, rfl⟩ | ⟨h, rfl⟩) <;> simp only [h]

/-- Family 0xE (R78). -/
theorem decodeFamilyE_ok {w : Word} {f : Fields} {i : Instr} :
    decodeFamilyE w f = .ok i ↔ (f.kk = 0x9E#8 ∧ i = .skp f.x) ∨ (f.kk = 0xA1#8 ∧ i = .sknp f.x) := by
  unfold decodeFamilyE
  split <;> simp_all [eq_comm]

/-- Family 0xF (R79). -/
theorem decodeFamilyF_ok {w : Word} {f : Fields} {i : Instr} :
    decodeFamilyF w f = .ok i ↔
      (f.kk = 0x07#8 ∧ i = .ldVxDt f.x) ∨ (f.kk = 0x0A#8 ∧ i = .ldVxK f.x) ∨
      (f.kk = 0x15#8 ∧ i = .ldDtVx f.x) ∨ (f.kk = 0x18#8 ∧ i = .ldStVx f.x) ∨
      (f.kk = 0x1E#8 ∧ i = .addI f.x) ∨ (f.kk = 0x29#8 ∧ i = .ldF f.x) ∨
      (f.kk = 0x33#8 ∧ i = .ldB f.x) ∨ (f.kk = 0x55#8 ∧ i = .storeRegs f.x) ∨
      (f.kk = 0x65#8 ∧ i = .loadRegs f.x) := by
  unfold decodeFamilyF
  constructor
  · intro h
    split at h <;> simp_all only [Except.ok.injEq, reduceCtorEq, true_and, true_or, or_true, eq_comm]
  · rintro (⟨h, rfl⟩ | ⟨h, rfl⟩ | ⟨h, rfl⟩ | ⟨h, rfl⟩ | ⟨h, rfl⟩ | ⟨h, rfl⟩ | ⟨h, rfl⟩ | ⟨h, rfl⟩ | ⟨h, rfl⟩) <;> simp only [h]

/-- What a decoded word is, by family (R75, R83). -/
theorem decodeWord_ok {w : Word} {i : Instr} (h : decodeWord w = .ok i) :
    ((fields w).op = 0x0#4 ∧ decodeFamily0 w (fields w) = .ok i) ∨
    ((fields w).op = 0x1#4 ∧ i = .jp (fields w).nnn) ∨
    ((fields w).op = 0x2#4 ∧ i = .call (fields w).nnn) ∨
    ((fields w).op = 0x3#4 ∧ i = .seImm (fields w).x (fields w).kk) ∨
    ((fields w).op = 0x4#4 ∧ i = .sneImm (fields w).x (fields w).kk) ∨
    ((fields w).op = 0x5#4 ∧ i = .seReg (fields w).x (fields w).y (fields w).n) ∨
    ((fields w).op = 0x6#4 ∧ i = .ldImm (fields w).x (fields w).kk) ∨
    ((fields w).op = 0x7#4 ∧ i = .addImm (fields w).x (fields w).kk) ∨
    ((fields w).op = 0x8#4 ∧ decodeFamily8 w (fields w) = .ok i) ∨
    ((fields w).op = 0x9#4 ∧ i = .sneReg (fields w).x (fields w).y (fields w).n) ∨
    ((fields w).op = 0xA#4 ∧ i = .ldI (fields w).nnn) ∨
    ((fields w).op = 0xB#4 ∧ i = .jpV0 (fields w).nnn) ∨
    ((fields w).op = 0xC#4 ∧ i = .rnd (fields w).x (fields w).kk) ∨
    ((fields w).op = 0xD#4 ∧ i = .drw (fields w).x (fields w).y (fields w).n) ∨
    ((fields w).op = 0xE#4 ∧ decodeFamilyE w (fields w) = .ok i) ∨
    ((fields w).op = 0xF#4 ∧ decodeFamilyF w (fields w) = .ok i) := by
  unfold decodeWord at h
  simp only at h
  split at h <;> first
    | (have hF := op_eq_F (fields w).op ‹_› ‹_› ‹_› ‹_› ‹_› ‹_› ‹_› ‹_› ‹_› ‹_› ‹_› ‹_› ‹_› ‹_› ‹_›
       simp only [hF, h, true_and, or_true])
    | (injection h with h; subst h; simp only [*, true_and, true_or, or_true])
    | simp only [*, true_and, true_or, or_true]

/-- A word gives an instruction or is refused as `InvalidOpcode` with the whole word (R201). -/
theorem decodeWord_error {w : Word} {e : DecodeError} (h : decodeWord w = .error e) : e = .invalidOpcode w := by
  unfold decodeWord decodeFamily0 decodeFamily8 decodeFamilyE decodeFamilyF at h
  simp only at h
  split at h <;> (try split at h) <;> simp_all [eq_comm]

end Sys2Proof
end

