-- ==== Sys2Proof/Laws/State.lean ====
section
/-!
SUPPORT. One lemma per field per update, each true by unfolding the update, so that no later proof unfolds a record
update (spec/10_state.md names the fields).
-/

namespace Sys2Proof.Machine

/-! ### writeV -/

@[simp] theorem writeV_v (s : State) (x : Nibble) (b : Byte) : (writeV s x b).v = s.v.set x.toNat b x.isLt := rfl
@[simp] theorem writeV_i (s : State) (x : Nibble) (b : Byte) : (writeV s x b).i = s.i := rfl
@[simp] theorem writeV_pc (s : State) (x : Nibble) (b : Byte) : (writeV s x b).pc = s.pc := rfl
@[simp] theorem writeV_stack (s : State) (x : Nibble) (b : Byte) : (writeV s x b).stack = s.stack := rfl
@[simp] theorem writeV_dt (s : State) (x : Nibble) (b : Byte) : (writeV s x b).dt = s.dt := rfl
@[simp] theorem writeV_st (s : State) (x : Nibble) (b : Byte) : (writeV s x b).st = s.st := rfl
@[simp] theorem writeV_fb (s : State) (x : Nibble) (b : Byte) : (writeV s x b).fb = s.fb := rfl
@[simp] theorem writeV_keys (s : State) (x : Nibble) (b : Byte) : (writeV s x b).keys = s.keys := rfl
@[simp] theorem writeV_waiting (s : State) (x : Nibble) (b : Byte) : (writeV s x b).waiting = s.waiting := rfl
@[simp] theorem writeV_waitX (s : State) (x : Nibble) (b : Byte) : (writeV s x b).waitX = s.waitX := rfl
@[simp] theorem writeV_mem (s : State) (x : Nibble) (b : Byte) : (writeV s x b).mem = s.mem := rfl
@[simp] theorem writeV_draws (s : State) (x : Nibble) (b : Byte) : (writeV s x b).draws = s.draws := rfl
@[simp] theorem writeV_config (s : State) (x : Nibble) (b : Byte) : (writeV s x b).config = s.config := rfl

/-! ### writeFlag -/

@[simp] theorem writeFlag_v (s : State) (b : Byte) : (writeFlag s b).v = s.v.set flagReg.toNat b flagReg.isLt := rfl
@[simp] theorem writeFlag_i (s : State) (b : Byte) : (writeFlag s b).i = s.i := rfl
@[simp] theorem writeFlag_pc (s : State) (b : Byte) : (writeFlag s b).pc = s.pc := rfl
@[simp] theorem writeFlag_stack (s : State) (b : Byte) : (writeFlag s b).stack = s.stack := rfl
@[simp] theorem writeFlag_dt (s : State) (b : Byte) : (writeFlag s b).dt = s.dt := rfl
@[simp] theorem writeFlag_st (s : State) (b : Byte) : (writeFlag s b).st = s.st := rfl
@[simp] theorem writeFlag_fb (s : State) (b : Byte) : (writeFlag s b).fb = s.fb := rfl
@[simp] theorem writeFlag_keys (s : State) (b : Byte) : (writeFlag s b).keys = s.keys := rfl
@[simp] theorem writeFlag_waiting (s : State) (b : Byte) : (writeFlag s b).waiting = s.waiting := rfl
@[simp] theorem writeFlag_waitX (s : State) (b : Byte) : (writeFlag s b).waitX = s.waitX := rfl
@[simp] theorem writeFlag_mem (s : State) (b : Byte) : (writeFlag s b).mem = s.mem := rfl
@[simp] theorem writeFlag_draws (s : State) (b : Byte) : (writeFlag s b).draws = s.draws := rfl
@[simp] theorem writeFlag_config (s : State) (b : Byte) : (writeFlag s b).config = s.config := rfl

/-! ### writeByte -/

@[simp] theorem writeByte_v (s : State) (a : Nat) (b : Byte) : (writeByte s a b).v = s.v := rfl
@[simp] theorem writeByte_i (s : State) (a : Nat) (b : Byte) : (writeByte s a b).i = s.i := rfl
@[simp] theorem writeByte_pc (s : State) (a : Nat) (b : Byte) : (writeByte s a b).pc = s.pc := rfl
@[simp] theorem writeByte_stack (s : State) (a : Nat) (b : Byte) : (writeByte s a b).stack = s.stack := rfl
@[simp] theorem writeByte_dt (s : State) (a : Nat) (b : Byte) : (writeByte s a b).dt = s.dt := rfl
@[simp] theorem writeByte_st (s : State) (a : Nat) (b : Byte) : (writeByte s a b).st = s.st := rfl
@[simp] theorem writeByte_fb (s : State) (a : Nat) (b : Byte) : (writeByte s a b).fb = s.fb := rfl
@[simp] theorem writeByte_keys (s : State) (a : Nat) (b : Byte) : (writeByte s a b).keys = s.keys := rfl
@[simp] theorem writeByte_waiting (s : State) (a : Nat) (b : Byte) : (writeByte s a b).waiting = s.waiting := rfl
@[simp] theorem writeByte_waitX (s : State) (a : Nat) (b : Byte) : (writeByte s a b).waitX = s.waitX := rfl
@[simp] theorem writeByte_mem (s : State) (a : Nat) (b : Byte) : (writeByte s a b).mem = Memory.write (resetByte s.config.font) s.mem a b := rfl
@[simp] theorem writeByte_draws (s : State) (a : Nat) (b : Byte) : (writeByte s a b).draws = s.draws := rfl
@[simp] theorem writeByte_config (s : State) (a : Nat) (b : Byte) : (writeByte s a b).config = s.config := rfl

/-! ### advancePc -/

@[simp] theorem advancePc_v (s : State) : (advancePc s).v = s.v := rfl
@[simp] theorem advancePc_i (s : State) : (advancePc s).i = s.i := rfl
@[simp] theorem advancePc_pc (s : State) : (advancePc s).pc = s.pc + 2#16 := rfl
@[simp] theorem advancePc_stack (s : State) : (advancePc s).stack = s.stack := rfl
@[simp] theorem advancePc_dt (s : State) : (advancePc s).dt = s.dt := rfl
@[simp] theorem advancePc_st (s : State) : (advancePc s).st = s.st := rfl
@[simp] theorem advancePc_fb (s : State) : (advancePc s).fb = s.fb := rfl
@[simp] theorem advancePc_keys (s : State) : (advancePc s).keys = s.keys := rfl
@[simp] theorem advancePc_waiting (s : State) : (advancePc s).waiting = s.waiting := rfl
@[simp] theorem advancePc_waitX (s : State) : (advancePc s).waitX = s.waitX := rfl
@[simp] theorem advancePc_mem (s : State) : (advancePc s).mem = s.mem := rfl
@[simp] theorem advancePc_draws (s : State) : (advancePc s).draws = s.draws := rfl
@[simp] theorem advancePc_config (s : State) : (advancePc s).config = s.config := rfl

/-! ### setPc -/

@[simp] theorem setPc_v (s : State) (w : Word) : (setPc s w).v = s.v := rfl
@[simp] theorem setPc_i (s : State) (w : Word) : (setPc s w).i = s.i := rfl
@[simp] theorem setPc_pc (s : State) (w : Word) : (setPc s w).pc = w := rfl
@[simp] theorem setPc_stack (s : State) (w : Word) : (setPc s w).stack = s.stack := rfl
@[simp] theorem setPc_dt (s : State) (w : Word) : (setPc s w).dt = s.dt := rfl
@[simp] theorem setPc_st (s : State) (w : Word) : (setPc s w).st = s.st := rfl
@[simp] theorem setPc_fb (s : State) (w : Word) : (setPc s w).fb = s.fb := rfl
@[simp] theorem setPc_keys (s : State) (w : Word) : (setPc s w).keys = s.keys := rfl
@[simp] theorem setPc_waiting (s : State) (w : Word) : (setPc s w).waiting = s.waiting := rfl
@[simp] theorem setPc_waitX (s : State) (w : Word) : (setPc s w).waitX = s.waitX := rfl
@[simp] theorem setPc_mem (s : State) (w : Word) : (setPc s w).mem = s.mem := rfl
@[simp] theorem setPc_draws (s : State) (w : Word) : (setPc s w).draws = s.draws := rfl
@[simp] theorem setPc_config (s : State) (w : Word) : (setPc s w).config = s.config := rfl

/-! ### setI -/

@[simp] theorem setI_v (s : State) (w : Word) : (setI s w).v = s.v := rfl
@[simp] theorem setI_i (s : State) (w : Word) : (setI s w).i = w := rfl
@[simp] theorem setI_pc (s : State) (w : Word) : (setI s w).pc = s.pc := rfl
@[simp] theorem setI_stack (s : State) (w : Word) : (setI s w).stack = s.stack := rfl
@[simp] theorem setI_dt (s : State) (w : Word) : (setI s w).dt = s.dt := rfl
@[simp] theorem setI_st (s : State) (w : Word) : (setI s w).st = s.st := rfl
@[simp] theorem setI_fb (s : State) (w : Word) : (setI s w).fb = s.fb := rfl
@[simp] theorem setI_keys (s : State) (w : Word) : (setI s w).keys = s.keys := rfl
@[simp] theorem setI_waiting (s : State) (w : Word) : (setI s w).waiting = s.waiting := rfl
@[simp] theorem setI_waitX (s : State) (w : Word) : (setI s w).waitX = s.waitX := rfl
@[simp] theorem setI_mem (s : State) (w : Word) : (setI s w).mem = s.mem := rfl
@[simp] theorem setI_draws (s : State) (w : Word) : (setI s w).draws = s.draws := rfl
@[simp] theorem setI_config (s : State) (w : Word) : (setI s w).config = s.config := rfl

/-! ### pushStack -/

@[simp] theorem pushStack_v (s : State) (a : Word) : (pushStack s a).v = s.v := rfl
@[simp] theorem pushStack_i (s : State) (a : Word) : (pushStack s a).i = s.i := rfl
@[simp] theorem pushStack_pc (s : State) (a : Word) : (pushStack s a).pc = s.pc := rfl
@[simp] theorem pushStack_stack (s : State) (a : Word) : (pushStack s a).stack = s.stack ++ [a] := rfl
@[simp] theorem pushStack_dt (s : State) (a : Word) : (pushStack s a).dt = s.dt := rfl
@[simp] theorem pushStack_st (s : State) (a : Word) : (pushStack s a).st = s.st := rfl
@[simp] theorem pushStack_fb (s : State) (a : Word) : (pushStack s a).fb = s.fb := rfl
@[simp] theorem pushStack_keys (s : State) (a : Word) : (pushStack s a).keys = s.keys := rfl
@[simp] theorem pushStack_waiting (s : State) (a : Word) : (pushStack s a).waiting = s.waiting := rfl
@[simp] theorem pushStack_waitX (s : State) (a : Word) : (pushStack s a).waitX = s.waitX := rfl
@[simp] theorem pushStack_mem (s : State) (a : Word) : (pushStack s a).mem = s.mem := rfl
@[simp] theorem pushStack_draws (s : State) (a : Word) : (pushStack s a).draws = s.draws := rfl
@[simp] theorem pushStack_config (s : State) (a : Word) : (pushStack s a).config = s.config := rfl

/-! ### advanceI -/

@[simp] theorem advanceI_v (s : State) (x : Nibble) : (advanceI s x).v = s.v := rfl
@[simp] theorem advanceI_i (s : State) (x : Nibble) : (advanceI s x).i = BitVec.ofNat 16 (s.i.toNat + x.toNat + 1) := rfl
@[simp] theorem advanceI_pc (s : State) (x : Nibble) : (advanceI s x).pc = s.pc := rfl
@[simp] theorem advanceI_stack (s : State) (x : Nibble) : (advanceI s x).stack = s.stack := rfl
@[simp] theorem advanceI_dt (s : State) (x : Nibble) : (advanceI s x).dt = s.dt := rfl
@[simp] theorem advanceI_st (s : State) (x : Nibble) : (advanceI s x).st = s.st := rfl
@[simp] theorem advanceI_fb (s : State) (x : Nibble) : (advanceI s x).fb = s.fb := rfl
@[simp] theorem advanceI_keys (s : State) (x : Nibble) : (advanceI s x).keys = s.keys := rfl
@[simp] theorem advanceI_waiting (s : State) (x : Nibble) : (advanceI s x).waiting = s.waiting := rfl
@[simp] theorem advanceI_waitX (s : State) (x : Nibble) : (advanceI s x).waitX = s.waitX := rfl
@[simp] theorem advanceI_mem (s : State) (x : Nibble) : (advanceI s x).mem = s.mem := rfl
@[simp] theorem advanceI_draws (s : State) (x : Nibble) : (advanceI s x).draws = s.draws := rfl
@[simp] theorem advanceI_config (s : State) (x : Nibble) : (advanceI s x).config = s.config := rfl

/-! ### decrementTimers -/

@[simp] theorem decrementTimers_v (s : State) : (decrementTimers s).v = s.v := rfl
@[simp] theorem decrementTimers_i (s : State) : (decrementTimers s).i = s.i := rfl
@[simp] theorem decrementTimers_pc (s : State) : (decrementTimers s).pc = s.pc := rfl
@[simp] theorem decrementTimers_stack (s : State) : (decrementTimers s).stack = s.stack := rfl
@[simp] theorem decrementTimers_dt (s : State) : (decrementTimers s).dt = countDown s.dt := rfl
@[simp] theorem decrementTimers_st (s : State) : (decrementTimers s).st = countDown s.st := rfl
@[simp] theorem decrementTimers_fb (s : State) : (decrementTimers s).fb = s.fb := rfl
@[simp] theorem decrementTimers_keys (s : State) : (decrementTimers s).keys = s.keys := rfl
@[simp] theorem decrementTimers_waiting (s : State) : (decrementTimers s).waiting = s.waiting := rfl
@[simp] theorem decrementTimers_waitX (s : State) : (decrementTimers s).waitX = s.waitX := rfl
@[simp] theorem decrementTimers_mem (s : State) : (decrementTimers s).mem = s.mem := rfl
@[simp] theorem decrementTimers_draws (s : State) : (decrementTimers s).draws = s.draws := rfl
@[simp] theorem decrementTimers_config (s : State) : (decrementTimers s).config = s.config := rfl

/-! ### takeDraw -/

@[simp] theorem takeDraw_v (s : State) : ((takeDraw s).2).v = s.v := rfl
@[simp] theorem takeDraw_i (s : State) : ((takeDraw s).2).i = s.i := rfl
@[simp] theorem takeDraw_pc (s : State) : ((takeDraw s).2).pc = s.pc := rfl
@[simp] theorem takeDraw_stack (s : State) : ((takeDraw s).2).stack = s.stack := rfl
@[simp] theorem takeDraw_dt (s : State) : ((takeDraw s).2).dt = s.dt := rfl
@[simp] theorem takeDraw_st (s : State) : ((takeDraw s).2).st = s.st := rfl
@[simp] theorem takeDraw_fb (s : State) : ((takeDraw s).2).fb = s.fb := rfl
@[simp] theorem takeDraw_keys (s : State) : ((takeDraw s).2).keys = s.keys := rfl
@[simp] theorem takeDraw_waiting (s : State) : ((takeDraw s).2).waiting = s.waiting := rfl
@[simp] theorem takeDraw_waitX (s : State) : ((takeDraw s).2).waitX = s.waitX := rfl
@[simp] theorem takeDraw_mem (s : State) : ((takeDraw s).2).mem = s.mem := rfl
@[simp] theorem takeDraw_draws (s : State) : ((takeDraw s).2).draws = s.draws + 1 := rfl
@[simp] theorem takeDraw_config (s : State) : ((takeDraw s).2).config = s.config := rfl

/-! ### Updates that recurse or choose: the fields they leave alone -/

@[simp] theorem skipIf_v (c : Bool) (s : State) : (skipIf c s).v = s.v := by cases c <;> rfl
@[simp] theorem skipIf_i (c : Bool) (s : State) : (skipIf c s).i = s.i := by cases c <;> rfl
@[simp] theorem skipIf_stack (c : Bool) (s : State) : (skipIf c s).stack = s.stack := by cases c <;> rfl
@[simp] theorem skipIf_dt (c : Bool) (s : State) : (skipIf c s).dt = s.dt := by cases c <;> rfl
@[simp] theorem skipIf_st (c : Bool) (s : State) : (skipIf c s).st = s.st := by cases c <;> rfl
@[simp] theorem skipIf_fb (c : Bool) (s : State) : (skipIf c s).fb = s.fb := by cases c <;> rfl
@[simp] theorem skipIf_keys (c : Bool) (s : State) : (skipIf c s).keys = s.keys := by cases c <;> rfl
@[simp] theorem skipIf_waiting (c : Bool) (s : State) : (skipIf c s).waiting = s.waiting := by cases c <;> rfl
@[simp] theorem skipIf_waitX (c : Bool) (s : State) : (skipIf c s).waitX = s.waitX := by cases c <;> rfl
@[simp] theorem skipIf_mem (c : Bool) (s : State) : (skipIf c s).mem = s.mem := by cases c <;> rfl
@[simp] theorem skipIf_draws (c : Bool) (s : State) : (skipIf c s).draws = s.draws := by cases c <;> rfl
@[simp] theorem skipIf_config (c : Bool) (s : State) : (skipIf c s).config = s.config := by cases c <;> rfl
@[simp] theorem skipIf_pc (c : Bool) (s : State) : (skipIf c s).pc = if c then s.pc + 2#16 else s.pc := by cases c <;> rfl

@[simp] theorem writeBytes_v (s : State) (a : Nat) (bs : List Byte) : (writeBytes s a bs).v = s.v := by
  induction bs generalizing s a with
  | nil => rfl
  | cons b bs ih => simp [writeBytes, ih]
@[simp] theorem writeBytes_i (s : State) (a : Nat) (bs : List Byte) : (writeBytes s a bs).i = s.i := by
  induction bs generalizing s a with
  | nil => rfl
  | cons b bs ih => simp [writeBytes, ih]
@[simp] theorem writeBytes_pc (s : State) (a : Nat) (bs : List Byte) : (writeBytes s a bs).pc = s.pc := by
  induction bs generalizing s a with
  | nil => rfl
  | cons b bs ih => simp [writeBytes, ih]
@[simp] theorem writeBytes_stack (s : State) (a : Nat) (bs : List Byte) : (writeBytes s a bs).stack = s.stack := by
  induction bs generalizing s a with
  | nil => rfl
  | cons b bs ih => simp [writeBytes, ih]
@[simp] theorem writeBytes_dt (s : State) (a : Nat) (bs : List Byte) : (writeBytes s a bs).dt = s.dt := by
  induction bs generalizing s a with
  | nil => rfl
  | cons b bs ih => simp [writeBytes, ih]
@[simp] theorem writeBytes_st (s : State) (a : Nat) (bs : List Byte) : (writeBytes s a bs).st = s.st := by
  induction bs generalizing s a with
  | nil => rfl
  | cons b bs ih => simp [writeBytes, ih]
@[simp] theorem writeBytes_fb (s : State) (a : Nat) (bs : List Byte) : (writeBytes s a bs).fb = s.fb := by
  induction bs generalizing s a with
  | nil => rfl
  | cons b bs ih => simp [writeBytes, ih]
@[simp] theorem writeBytes_keys (s : State) (a : Nat) (bs : List Byte) : (writeBytes s a bs).keys = s.keys := by
  induction bs generalizing s a with
  | nil => rfl
  | cons b bs ih => simp [writeBytes, ih]
@[simp] theorem writeBytes_waiting (s : State) (a : Nat) (bs : List Byte) : (writeBytes s a bs).waiting = s.waiting := by
  induction bs generalizing s a with
  | nil => rfl
  | cons b bs ih => simp [writeBytes, ih]
@[simp] theorem writeBytes_waitX (s : State) (a : Nat) (bs : List Byte) : (writeBytes s a bs).waitX = s.waitX := by
  induction bs generalizing s a with
  | nil => rfl
  | cons b bs ih => simp [writeBytes, ih]
@[simp] theorem writeBytes_draws (s : State) (a : Nat) (bs : List Byte) : (writeBytes s a bs).draws = s.draws := by
  induction bs generalizing s a with
  | nil => rfl
  | cons b bs ih => simp [writeBytes, ih]
@[simp] theorem writeBytes_config (s : State) (a : Nat) (bs : List Byte) : (writeBytes s a bs).config = s.config := by
  induction bs generalizing s a with
  | nil => rfl
  | cons b bs ih => simp [writeBytes, ih]

@[simp] theorem loadRegsBelow_i (s : State) (a n : Nat) : (loadRegsBelow s a n).i = s.i := by
  induction n with
  | zero => rfl
  | succ n ih => simp [loadRegsBelow, ih]
@[simp] theorem loadRegsBelow_pc (s : State) (a n : Nat) : (loadRegsBelow s a n).pc = s.pc := by
  induction n with
  | zero => rfl
  | succ n ih => simp [loadRegsBelow, ih]
@[simp] theorem loadRegsBelow_stack (s : State) (a n : Nat) : (loadRegsBelow s a n).stack = s.stack := by
  induction n with
  | zero => rfl
  | succ n ih => simp [loadRegsBelow, ih]
@[simp] theorem loadRegsBelow_dt (s : State) (a n : Nat) : (loadRegsBelow s a n).dt = s.dt := by
  induction n with
  | zero => rfl
  | succ n ih => simp [loadRegsBelow, ih]
@[simp] theorem loadRegsBelow_st (s : State) (a n : Nat) : (loadRegsBelow s a n).st = s.st := by
  induction n with
  | zero => rfl
  | succ n ih => simp [loadRegsBelow, ih]
@[simp] theorem loadRegsBelow_fb (s : State) (a n : Nat) : (loadRegsBelow s a n).fb = s.fb := by
  induction n with
  | zero => rfl
  | succ n ih => simp [loadRegsBelow, ih]
@[simp] theorem loadRegsBelow_keys (s : State) (a n : Nat) : (loadRegsBelow s a n).keys = s.keys := by
  induction n with
  | zero => rfl
  | succ n ih => simp [loadRegsBelow, ih]
@[simp] theorem loadRegsBelow_waiting (s : State) (a n : Nat) : (loadRegsBelow s a n).waiting = s.waiting := by
  induction n with
  | zero => rfl
  | succ n ih => simp [loadRegsBelow, ih]
@[simp] theorem loadRegsBelow_waitX (s : State) (a n : Nat) : (loadRegsBelow s a n).waitX = s.waitX := by
  induction n with
  | zero => rfl
  | succ n ih => simp [loadRegsBelow, ih]
@[simp] theorem loadRegsBelow_mem (s : State) (a n : Nat) : (loadRegsBelow s a n).mem = s.mem := by
  induction n with
  | zero => rfl
  | succ n ih => simp [loadRegsBelow, ih]
@[simp] theorem loadRegsBelow_draws (s : State) (a n : Nat) : (loadRegsBelow s a n).draws = s.draws := by
  induction n with
  | zero => rfl
  | succ n ih => simp [loadRegsBelow, ih]
@[simp] theorem loadRegsBelow_config (s : State) (a n : Nat) : (loadRegsBelow s a n).config = s.config := by
  induction n with
  | zero => rfl
  | succ n ih => simp [loadRegsBelow, ih]

@[simp] theorem writeVThenFlag_i (s : State) (x : Nibble) (b c : Byte) : (writeVThenFlag s x b c).i = s.i := rfl
@[simp] theorem writeVThenFlag_pc (s : State) (x : Nibble) (b c : Byte) : (writeVThenFlag s x b c).pc = s.pc := rfl
@[simp] theorem writeVThenFlag_stack (s : State) (x : Nibble) (b c : Byte) : (writeVThenFlag s x b c).stack = s.stack := rfl
@[simp] theorem writeVThenFlag_dt (s : State) (x : Nibble) (b c : Byte) : (writeVThenFlag s x b c).dt = s.dt := rfl
@[simp] theorem writeVThenFlag_st (s : State) (x : Nibble) (b c : Byte) : (writeVThenFlag s x b c).st = s.st := rfl
@[simp] theorem writeVThenFlag_fb (s : State) (x : Nibble) (b c : Byte) : (writeVThenFlag s x b c).fb = s.fb := rfl
@[simp] theorem writeVThenFlag_keys (s : State) (x : Nibble) (b c : Byte) : (writeVThenFlag s x b c).keys = s.keys := rfl
@[simp] theorem writeVThenFlag_waiting (s : State) (x : Nibble) (b c : Byte) : (writeVThenFlag s x b c).waiting = s.waiting := rfl
@[simp] theorem writeVThenFlag_waitX (s : State) (x : Nibble) (b c : Byte) : (writeVThenFlag s x b c).waitX = s.waitX := rfl
@[simp] theorem writeVThenFlag_mem (s : State) (x : Nibble) (b c : Byte) : (writeVThenFlag s x b c).mem = s.mem := rfl
@[simp] theorem writeVThenFlag_draws (s : State) (x : Nibble) (b c : Byte) : (writeVThenFlag s x b c).draws = s.draws := rfl
@[simp] theorem writeVThenFlag_config (s : State) (x : Nibble) (b c : Byte) : (writeVThenFlag s x b c).config = s.config := rfl

end Sys2Proof.Machine
end

