-- ==== Sys2Proof/Laws/Registers.lean ====
section
/-!
SUPPORT. Reads of general registers after the operations that write them, and of anything else after them
(spec/10_state.md R20 to R22, spec/41_alu.md R121).
-/

namespace Sys2Proof.Machine

/-- A register reads as the last value written to it, and a write leaves every other register alone (R20). -/
theorem readV_writeV (s : State) (x y : Nibble) (b : Byte) :
    readV (writeV s x b) y = if y = x then b else readV s y := by
  by_cases h : y = x
  · subst h; simp [readV, writeV]
  · have hn : ¬ x.toNat = y.toNat := fun e => h (BitVec.eq_of_toNat_eq e.symm)
    simp [readV, writeV, h, hn]

@[simp] theorem readV_writeV_self (s : State) (x : Nibble) (b : Byte) : readV (writeV s x b) x = b := by
  simp [readV_writeV]

theorem readV_writeFlag (s : State) (y : Nibble) (b : Byte) :
    readV (writeFlag s b) y = if y = flagReg then b else readV s y := readV_writeV s flagReg y b

/-- The flag is written last: for `x = 15` it is what `VF` holds (R121). -/
theorem readV_writeVThenFlag (s : State) (x y : Nibble) (b flag : Byte) :
    readV (writeVThenFlag s x b flag) y =
      if y = flagReg then flag else if y = x then b else readV s y := by
  simp [writeVThenFlag, readV_writeFlag, readV_writeV]

/-- A register read depends on `v` alone. -/
theorem readV_congr {s t : State} (h : t.v = s.v) (y : Nibble) : readV t y = readV s y := by
  simp [readV, h]

@[simp] theorem readV_advancePc (s : State) (y : Nibble) : readV (advancePc s) y = readV s y := rfl
@[simp] theorem readV_setPc (s : State) (w : Word) (y : Nibble) : readV (setPc s w) y = readV s y := rfl
@[simp] theorem readV_setI (s : State) (w : Word) (y : Nibble) : readV (setI s w) y = readV s y := rfl
@[simp] theorem readV_advanceI (s : State) (x y : Nibble) : readV (advanceI s x) y = readV s y := rfl
@[simp] theorem readV_pushStack (s : State) (a : Word) (y : Nibble) : readV (pushStack s a) y = readV s y := rfl
@[simp] theorem readV_writeByte (s : State) (a : Nat) (b : Byte) (y : Nibble) :
    readV (writeByte s a b) y = readV s y := rfl
@[simp] theorem readV_decrementTimers (s : State) (y : Nibble) : readV (decrementTimers s) y = readV s y := rfl
@[simp] theorem readV_takeDraw (s : State) (y : Nibble) : readV (takeDraw s).2 y = readV s y := rfl
@[simp] theorem readV_skipIf (c : Bool) (s : State) (y : Nibble) : readV (skipIf c s) y = readV s y :=
  readV_congr (by simp) y
@[simp] theorem readV_writeBytes (s : State) (a : Nat) (bs : List Byte) (y : Nibble) :
    readV (writeBytes s a bs) y = readV s y :=
  readV_congr (by simp) y

/-- The registers a block store writes out: register `r` stands at place `r` (R154). -/
theorem regsUpTo_getElem? (s : State) (x r : Nibble) (h : r.toNat ≤ x.toNat) :
    (regsUpTo s x)[r.toNat]? = some (readV s r) := by
  have hr : r.toNat < 16 := r.isLt
  simp [regsUpTo, readV, List.getElem?_take, hr]
  omega

@[simp] theorem regsUpTo_length (s : State) (x : Nibble) : (regsUpTo s x).length = x.toNat + 1 := by
  have hx : x.toNat < 16 := x.isLt
  simp [regsUpTo]
  omega

end Sys2Proof.Machine
end

