-- ==== Sys2Proof/Laws/Memory.lean ====
section
/-!
SUPPORT. Memory: read after write, the canonical form and that every memory operation keeps it
(spec/20_memory.md R50 to R61).
-/

namespace Sys2Proof.Machine

/-! ### The list of cells -/

theorem Memory.wfFrom_mono {blank : Nat → Byte} {lo lo' : Nat} {m : Memory} (h : lo' ≤ lo)
    (hm : Memory.wfFrom blank lo m = true) : Memory.wfFrom blank lo' m = true := by
  cases m with
  | nil => rfl
  | cons c m =>
    simp only [Memory.wfFrom, Bool.and_eq_true, decide_eq_true_eq] at hm ⊢
    exact ⟨⟨⟨h.trans hm.1.1.1, hm.1.1.2⟩, hm.1.2⟩, hm.2⟩

/-- Below the first listed address every address reads as unlisted. -/
theorem Memory.read_below {blank : Nat → Byte} {lo : Nat} {m : Memory}
    (hm : Memory.wfFrom blank lo m = true) {a : Nat} (h : a < lo) : Memory.read blank m a = blank a := by
  induction m generalizing lo with
  | nil => rfl
  | cons c m ih =>
    simp only [Memory.wfFrom, Bool.and_eq_true, decide_eq_true_eq] at hm
    have hc : ¬ c.1 = a := by omega
    simp only [Memory.read, hc, if_false]
    exact ih hm.2 (by omega)

theorem Memory.read_put (blank : Nat → Byte) (a a' : Nat) (b : Byte) {lo : Nat} {m : Memory}
    (hm : Memory.wfFrom blank lo m = true) (h : a < lo) :
    Memory.read blank (Memory.put blank a b m) a' = if a' = a then b else Memory.read blank m a' := by
  unfold Memory.put
  by_cases hb : b = blank a
  · by_cases ha : a' = a
    · subst ha; simp [hb, Memory.read_below hm h]
    · simp [hb, ha]
  · by_cases ha : a' = a
    · subst ha; simp [hb, Memory.read]
    · simp [hb, ha, Memory.read, Ne.symm ha]

theorem Memory.wfFrom_put (blank : Nat → Byte) (a : Nat) (b : Byte) {lo : Nat} {m : Memory}
    (hm : Memory.wfFrom blank (a + 1) m = true) (hlo : lo ≤ a) (ha : a < memSize) :
    Memory.wfFrom blank lo (Memory.put blank a b m) = true := by
  unfold Memory.put
  by_cases hb : b = blank a
  · simpa [hb] using Memory.wfFrom_mono (by omega) hm
  · simp [hb, Memory.wfFrom, hm, hlo, ha]

/-- Read after write, in a canonical memory. -/
theorem Memory.read_write (blank : Nat → Byte) (a a' : Nat) (b : Byte) {lo : Nat} {m : Memory}
    (hm : Memory.wfFrom blank lo m = true) :
    Memory.read blank (Memory.write blank m a b) a' = if a' = a then b else Memory.read blank m a' := by
  induction m generalizing lo with
  | nil => exact Memory.read_put blank a a' b (lo := a + 1) rfl (by omega)
  | cons c m ih =>
    have hw := hm
    simp only [Memory.wfFrom, Bool.and_eq_true, decide_eq_true_eq] at hw
    unfold Memory.write
    by_cases h1 : a < c.1
    · simp only [h1, if_true]
      exact Memory.read_put blank a a' b (lo := c.1)
        (by simp only [Memory.wfFrom, Bool.and_eq_true, decide_eq_true_eq]; exact ⟨⟨⟨le_refl _, hw.1.1.2⟩, hw.1.2⟩, hw.2⟩) h1
    · by_cases h2 : a = c.1
      · simp only [h2, lt_irrefl, if_false, if_true]
        rw [Memory.read_put blank c.1 a' b (lo := c.1 + 1) hw.2 (by omega)]
        by_cases h3 : a' = c.1
        · simp [h3]
        · simp [h3, Memory.read, Ne.symm h3]
      · simp only [h1, h2, if_false, Memory.read, ih hw.2]
        by_cases h3 : c.1 = a'
        · have : ¬ a' = a := by omega
          simp [h3, this]
        · simp [h3]

/-- A write keeps the canonical form. -/
theorem Memory.wfFrom_write (blank : Nat → Byte) (a : Nat) (b : Byte) {lo : Nat} {m : Memory}
    (hm : Memory.wfFrom blank lo m = true) (hlo : lo ≤ a) (ha : a < memSize) :
    Memory.wfFrom blank lo (Memory.write blank m a b) = true := by
  induction m generalizing lo with
  | nil => exact Memory.wfFrom_put blank a b rfl hlo ha
  | cons c m ih =>
    have hw := hm
    simp only [Memory.wfFrom, Bool.and_eq_true, decide_eq_true_eq] at hw
    unfold Memory.write
    by_cases h1 : a < c.1
    · simp only [h1, if_true]
      refine Memory.wfFrom_put blank a b ?_ hlo ha
      simp only [Memory.wfFrom, Bool.and_eq_true, decide_eq_true_eq]
      exact ⟨⟨⟨h1, hw.1.1.2⟩, hw.1.2⟩, hw.2⟩
    · by_cases h2 : a = c.1
      · simp only [h2, if_false, if_true, lt_irrefl]
        exact Memory.wfFrom_put blank c.1 b hw.2 hw.1.1.1 hw.1.1.2
      · simp only [h1, h2, if_false, Memory.wfFrom, Bool.and_eq_true, decide_eq_true_eq]
        exact ⟨⟨⟨hw.1.1.1, hw.1.1.2⟩, hw.1.2⟩, ih hw.2 (by omega)⟩

/-! ### The memory of a state -/

/-- Reset memory lists nothing, and is canonical (R44). -/
theorem memoryWf_new (c : Config) : memoryWf (State.new c) := rfl

theorem memoryWf_congr {s t : State} (hm : t.mem = s.mem) (hc : t.config = s.config) (h : memoryWf s) : memoryWf t := by
  unfold memoryWf at *; rw [hm, hc]; exact h

/-- A read depends on `mem` and the font alone. -/
theorem readByte_congr {s t : State} (hm : t.mem = s.mem) (hc : t.config = s.config) (a : Nat) :
    readByte t a = readByte s a := by
  simp [readByte, hm, hc]

/-- "Writes change only the byte written" (R56, R61). -/
theorem readByte_writeByte {s : State} (h : memoryWf s) (a a' : Nat) (b : Byte) :
    readByte (writeByte s a b) a' = if a' = a then b else readByte s a' :=
  Memory.read_write _ a a' b h

/-- One write keeps the canonical form. -/
theorem memoryWf_writeByte {s : State} (h : memoryWf s) (a : Nat) (b : Byte) (ha : a < memSize) :
    memoryWf (writeByte s a b) :=
  Memory.wfFrom_write _ a b h (Nat.zero_le a) ha

/-- A block of writes keeps the canonical form. -/
theorem memoryWf_writeBytes {s : State} (h : memoryWf s) (a : Nat) (bs : List Byte) (ha : a + bs.length ≤ memSize) :
    memoryWf (writeBytes s a bs) := by
  induction bs generalizing s a with
  | nil => exact h
  | cons b bs ih =>
    simp only [List.length_cons] at ha
    exact ih (memoryWf_writeByte h a b (by omega)) (a + 1) (by omega)

/-- A block of writes: inside the block the byte written, outside it the byte before. -/
theorem readByte_writeBytes {s : State} (h : memoryWf s) (a : Nat) (bs : List Byte) (ha : a + bs.length ≤ memSize)
    (a' : Nat) :
    readByte (writeBytes s a bs) a' =
      if a ≤ a' then (bs[a' - a]?).getD (readByte s a') else readByte s a' := by
  induction bs generalizing s a with
  | nil => simp [writeBytes]
  | cons b bs ih =>
    simp only [List.length_cons] at ha
    rw [writeBytes, ih (memoryWf_writeByte h a b (by omega)) (a + 1) (by omega), readByte_writeByte h]
    by_cases h1 : a' = a
    · subst h1
      have : ¬ a' + 1 ≤ a' := by omega
      simp
    · by_cases h2 : a + 1 ≤ a'
      · have h3 : a ≤ a' := by omega
        have h4 : a' - a = (a' - (a + 1)) + 1 := by omega
        simp [h1, h2, h3, h4]
      · have h3 : ¬ a ≤ a' := by omega
        simp [h1, h2, h3]

theorem readByte_writeBytes_outside {s : State} (h : memoryWf s) (a : Nat) (bs : List Byte)
    (ha : a + bs.length ≤ memSize) (a' : Nat) (ho : a' < a ∨ a + bs.length ≤ a') :
    readByte (writeBytes s a bs) a' = readByte s a' := by
  rw [readByte_writeBytes h a bs ha]
  rcases ho with ho | ho
  · have : ¬ a ≤ a' := by omega
    simp [this]
  · have : bs.length ≤ a' - a := by omega
    simp [List.getElem?_eq_none this]

theorem readBytes_length (s : State) (a n : Nat) : (readBytes s a n).length = n := by
  induction n generalizing a with
  | zero => rfl
  | succ n ih => simp [readBytes, ih]

theorem readBytes_getElem? (s : State) (a n k : Nat) (h : k < n) :
    (readBytes s a n)[k]? = some (readByte s (a + k)) := by
  induction n generalizing a k with
  | zero => omega
  | succ n ih =>
    cases k with
    | zero => simp [readBytes]
    | succ k => simpa [readBytes, Nat.add_assoc, Nat.add_comm 1 k] using ih (a + 1) k (by omega)

/-- The reset contents of an address: FONT at 0x50 to 0x9F, 0 elsewhere (R44, R57). -/
theorem readByte_new (c : Config) (a : Nat) : readByte (State.new c) a = resetByte c.font a := rfl

@[simp] theorem readByte_writeV (s : State) (x : Nibble) (b : Byte) (a : Nat) :
    readByte (writeV s x b) a = readByte s a := rfl
@[simp] theorem readByte_writeFlag (s : State) (b : Byte) (a : Nat) : readByte (writeFlag s b) a = readByte s a := rfl
@[simp] theorem readByte_advancePc (s : State) (a : Nat) : readByte (advancePc s) a = readByte s a := rfl
@[simp] theorem readByte_setPc (s : State) (w : Word) (a : Nat) : readByte (setPc s w) a = readByte s a := rfl
@[simp] theorem readByte_setI (s : State) (w : Word) (a : Nat) : readByte (setI s w) a = readByte s a := rfl
@[simp] theorem readByte_advanceI (s : State) (x : Nibble) (a : Nat) : readByte (advanceI s x) a = readByte s a := rfl
@[simp] theorem readByte_decrementTimers (s : State) (a : Nat) : readByte (decrementTimers s) a = readByte s a := rfl
@[simp] theorem readByte_loadRegsBelow (s : State) (base n a : Nat) :
    readByte (loadRegsBelow s base n) a = readByte s a := readByte_congr (by simp) (by simp) a

/-- A block load: register `r` below `n` holds the byte at `a + r`, every other register what it held (R155). -/
theorem readV_loadRegsBelow (s : State) (a n : Nat) (hn : n ≤ 16) (r : Nibble) :
    readV (loadRegsBelow s a n) r = if r.toNat < n then readByte s (a + r.toNat) else readV s r := by
  induction n with
  | zero => simp [loadRegsBelow]
  | succ n ih =>
    have h16 : (BitVec.ofNat 4 n).toNat = n := by simp; omega
    simp only [loadRegsBelow, readV_writeV, readByte_loadRegsBelow, ih (by omega)]
    by_cases h : r = BitVec.ofNat 4 n
    · have hr : r.toNat = n := by rw [h, h16]
      simp [h, h16]
    · have hr : r.toNat ≠ n := fun e => h (BitVec.eq_of_toNat_eq (by rw [h16, e]))
      by_cases h1 : r.toNat < n
      · have : r.toNat < n + 1 := by omega
        simp [h, h1, this]
      · have : ¬ r.toNat < n + 1 := by omega
        simp [h, h1, this]

end Sys2Proof.Machine
end

