-- ==== Sys2Proof/Laws/Display.lean ====
section
/-!
SUPPORT. The framebuffer: a pixel read after a pixel write, and what one sprite bit does (spec/43_display.md R171 to R174).
-/

namespace Sys2Proof.Machine

/-- A pixel write changes that pixel and no other. -/
theorem pixel_setPixel (fb : Framebuffer) (x x' : Fin 64) (y y' : Fin 32) (b : Bool) :
    pixel (setPixel fb x y b) x' y' = if x' = x ∧ y' = y then b else pixel fb x' y' := by
  by_cases hy : y' = y
  · subst hy
    by_cases hx : x' = x
    · subst hx; simp [pixel, setPixel]
    · have : ¬ x.val = x'.val := fun e => hx (Fin.ext e.symm)
      simp [pixel, setPixel, hx, this]
  · have : ¬ y.val = y'.val := fun e => hy (Fin.ext e.symm)
    simp [pixel, setPixel, hy, this]

@[simp] theorem pixel_clearFramebuffer (x : Fin 64) (y : Fin 32) : pixel clearFramebuffer x y = false := by
  simp [pixel, clearFramebuffer]

/-- Two framebuffers with the same pixels are the same framebuffer. -/
theorem framebuffer_ext {fb fb' : Framebuffer} (h : ∀ x y, pixel fb x y = pixel fb' x y) : fb = fb' := by
  refine Vector.ext fun y hy => Vector.ext fun x hx => ?_
  exact h ⟨x, hx⟩ ⟨y, hy⟩

/-- One sprite bit flips its target pixel when it is set, and touches nothing else (R173). -/
theorem pixel_drawBit (cx cy r : Nat) (row : Byte) (p : Canvas) (c : Nat) (x : Fin 64) (y : Fin 32) :
    pixel (drawBit cx cy r row p c).fb x y =
      (pixel p.fb x y ^^ (row.getLsbD (7 - c) && decide (x = Fin.ofNat 64 (cx + c) ∧ y = Fin.ofNat 32 (cy + r)))) := by
  unfold drawBit
  cases hb : row.getLsbD (7 - c) with
  | false => simp
  | true =>
    simp only [if_true, pixel_setPixel, Bool.true_and]
    by_cases h : x = Fin.ofNat 64 (cx + c) ∧ y = Fin.ofNat 32 (cy + r)
    · obtain ⟨hx, hy⟩ := h; simp [hx, hy]
    · rw [if_neg h, decide_eq_false h, Bool.xor_false]

/-- One sprite bit adds a collision when it is set on a pixel that is 1 (R173). -/
theorem collision_drawBit (cx cy r : Nat) (row : Byte) (p : Canvas) (c : Nat) :
    (drawBit cx cy r row p c).collision =
      (p.collision || (row.getLsbD (7 - c) && pixel p.fb (Fin.ofNat 64 (cx + c)) (Fin.ofNat 32 (cy + r)))) := by
  unfold drawBit
  cases row.getLsbD (7 - c) <;> simp

end Sys2Proof.Machine
end

