-- ==== Sys2Proof/Laws/Outcome.lean ====
section
/-!
SUPPORT. What the shared operations that may raise an error can answer (spec/00_scope.md R12, R13), and what one tick
can do (spec/30_encoding.md R80).
-/

namespace Sys2Proof.Machine

theorem outOfRange_iff (a n : Nat) : outOfRange a n = true ↔ 0 < n ∧ 0xFFF < a + n - 1 := by
  simp [outOfRange]

/-- A range that passes its check lies inside memory. -/
theorem inRange_of_not_outOfRange {a n : Nat} (h : outOfRange a n = false) (hn : 0 < n) : a + n ≤ memSize := by
  simp [outOfRange, hn] at h
  unfold memSize
  omega

/-- `CheckRange` answers next only when the range passes and the rest does. -/
theorem checkRange_next {a n : Nat} {rest : Result} {t : State} :
    checkRange a n rest = .next t ↔ outOfRange a n = false ∧ rest = .next t := by
  unfold checkRange raise
  cases outOfRange a n <;> simp

/-- `CheckRange` answers a fault only by its own check or by the rest's. -/
theorem checkRange_fault {a n : Nat} {rest : Result} {e : Fault} :
    checkRange a n rest = .fault e ↔
      (outOfRange a n = true ∧ e = .memoryOutOfBounds) ∨ (outOfRange a n = false ∧ rest = .fault e) := by
  unfold checkRange raise
  cases outOfRange a n <;> simp [eq_comm]

/-- `pop(S)` gives the last entry and the state without it. -/
theorem popStack_some {s t : State} {a : Word} :
    popStack s = some (a, t) ↔ s.stack.getLast? = some a ∧ t = { s with stack := s.stack.dropLast } := by
  unfold popStack
  cases s.stack.getLast? <;> simp [eq_comm]

theorem popStack_none {s : State} : popStack s = none ↔ s.stack = [] := by
  unfold popStack
  cases h : s.stack.getLast? with
  | none => simpa using h
  | some a => simp only [reduceCtorEq, false_iff]; intro e; simp [e] at h

theorem finishTick_next {r : Result} {t : State} :
    finishTick r = .next t ↔ ∃ u, r = .next u ∧ t = decrementTimers u := by
  cases r <;> simp [finishTick, eq_comm]

theorem executeWord_next {w : Word} {s t : State} :
    executeWord w s = .next t ↔ ∃ i, decodeWord w = .ok i ∧ exec i s = .next t := by
  unfold executeWord raise
  cases decodeWord w <;> simp

/-- What a tick that answers next did: it found the engine waiting and only counted the timers down, or it fetched,
decoded and executed one instruction with `PC` advanced and then counted the timers down (R80). -/
theorem tickOutcome_next {s t : State} :
    tickOutcome s = .next t ↔
      (s.waiting = true ∧ t = decrementTimers s) ∨
      (s.waiting = false ∧ outOfRange s.pc.toNat 2 = false ∧
        ∃ i u, decodeWord (fetchWord s) = .ok i ∧ exec i (advancePc s) = .next u ∧ t = decrementTimers u) := by
  unfold tickOutcome
  cases hw : s.waiting with
  | true =>
    simp only [if_true, Host.Outcome.next.injEq, true_and, Bool.true_eq_false, false_and, or_false]
    exact eq_comm
  | false =>
    simp only [Bool.false_eq_true, if_false, checkRange_next, finishTick_next, executeWord_next, false_and, false_or,
      true_and]
    constructor
    · rintro ⟨h, u, ⟨i, hd, he⟩, ht⟩
      exact ⟨h, i, u, hd, he, ht⟩
    · rintro ⟨h, i, u, hd, he, ht⟩
      exact ⟨h, u, ⟨i, hd, he⟩, ht⟩

theorem settle_next {onError t : State} {r : Result} (h : r = .next t) : settle onError r = (t, .ok) := by
  simp [settle, h]

theorem settle_fault {onError : State} {r : Result} {e : Fault} (h : r = .fault e) :
    settle onError r = (onError, .err e) := by
  simp [settle, h]

/-- The timer counts down to 0 and stops there (R214). -/
theorem countDown_toNat (b : Byte) : (countDown b).toNat = b.toNat - 1 := by
  unfold countDown
  by_cases h : b = 0#8
  · simp [h]
  · have : b.toNat ≠ 0 := fun e => h (BitVec.eq_of_toNat_eq (by simpa using e))
    have hb : b.toNat < 256 := b.isLt
    rw [if_neg h, BitVec.toNat_sub]
    simp
    omega

end Sys2Proof.Machine
end

