-- ==== Sys2Proof/Laws/Frames.lean ====
section
/-!
SUPPORT. Frames: a frame holds of a state and itself, chains, and holds of the countdown of the timers; and one more
step of a run (spec/60_exceptions.md R214).
-/

namespace Sys2Proof.Machine

theorem Keeps.refl (f : Footprint) (s : State) : Keeps f s s where
  regs := fun _ _ => rfl
  index := fun _ => rfl
  pc := fun _ => rfl
  stack := fun _ => rfl
  delay := fun _ => rfl
  sound := fun _ => rfl
  screen := fun _ => rfl
  keys := rfl
  keyWait := fun _ => ⟨rfl, rfl⟩
  memory := fun _ _ => rfl
  draws := fun _ => rfl
  config := rfl

theorem Keeps.trans {f : Footprint} {s t u : State} (h : Keeps f s t) (k : Keeps f t u) : Keeps f s u where
  regs := fun r e => (k.regs r e).trans (h.regs r e)
  index := fun e => (k.index e).trans (h.index e)
  pc := fun e => (k.pc e).trans (h.pc e)
  stack := fun e => (k.stack e).trans (h.stack e)
  delay := fun e => (k.delay e).trans (h.delay e)
  sound := fun e => (k.sound e).trans (h.sound e)
  screen := fun e => (k.screen e).trans (h.screen e)
  keys := k.keys.trans h.keys
  keyWait := fun e => ⟨(k.keyWait e).1.trans (h.keyWait e).1, (k.keyWait e).2.trans (h.keyWait e).2⟩
  memory := fun a e => (k.memory a e).trans (h.memory a e)
  draws := fun e => (k.draws e).trans (h.draws e)
  config := k.config.trans h.config

/-- Counting the timers down changes the timers alone (R214). -/
theorem keeps_decrementTimers (s : State) : Keeps { delay := true, sound := true } s (decrementTimers s) where
  regs := fun _ _ => rfl
  index := fun _ => rfl
  pc := fun _ => rfl
  stack := fun _ => rfl
  delay := fun e => by cases e
  sound := fun e => by cases e
  screen := fun _ => rfl
  keys := rfl
  keyWait := fun _ => ⟨rfl, rfl⟩
  memory := fun _ _ => rfl
  draws := fun _ => rfl
  config := rfl

/-- A register write changes that register alone. -/
theorem keeps_writeV (s : State) (x : Nibble) (b : Byte) : Keeps { regs := fun r => r = x } s (writeV s x b) where
  regs := fun r e => by rw [readV_writeV, if_neg e]
  index := fun _ => rfl
  pc := fun _ => rfl
  stack := fun _ => rfl
  delay := fun _ => rfl
  sound := fun _ => rfl
  screen := fun _ => rfl
  keys := rfl
  keyWait := fun _ => ⟨rfl, rfl⟩
  memory := fun _ _ => rfl
  draws := fun _ => rfl
  config := rfl

/-- A result and a flag change the destination and `VF` alone (R121). -/
theorem keeps_writeVThenFlag (s : State) (x : Nibble) (b flag : Byte) :
    Keeps { regs := fun r => r = x ∨ r = flagReg } s (writeVThenFlag s x b flag) where
  regs := fun r e => by
    have h : ¬ r = x ∧ ¬ r = flagReg := not_or.mp e
    rw [readV_writeVThenFlag, if_neg h.2, if_neg h.1]
  index := fun _ => rfl
  pc := fun _ => rfl
  stack := fun _ => rfl
  delay := fun _ => rfl
  sound := fun _ => rfl
  screen := fun _ => rfl
  keys := rfl
  keyWait := fun _ => ⟨rfl, rfl⟩
  memory := fun _ _ => rfl
  draws := fun _ => rfl
  config := rfl

/-- A write of `PC` changes `PC` alone. -/
theorem keeps_setPc (s : State) (w : Word) : Keeps { pc := true } s (setPc s w) where
  regs := fun _ _ => rfl
  index := fun _ => rfl
  pc := fun e => by cases e
  stack := fun _ => rfl
  delay := fun _ => rfl
  sound := fun _ => rfl
  screen := fun _ => rfl
  keys := rfl
  keyWait := fun _ => ⟨rfl, rfl⟩
  memory := fun _ _ => rfl
  draws := fun _ => rfl
  config := rfl

/-- A skip changes `PC` alone. -/
theorem keeps_skipIf (c : Bool) (s : State) : Keeps { pc := true } s (skipIf c s) := by
  cases c
  · exact Keeps.refl _ s
  · exact keeps_setPc s (s.pc + 2#16)

/-- A write of `I` changes `I` alone. -/
theorem keeps_setI (s : State) (w : Word) : Keeps { index := true } s (setI s w) where
  regs := fun _ _ => rfl
  index := fun e => by cases e
  pc := fun _ => rfl
  stack := fun _ => rfl
  delay := fun _ => rfl
  sound := fun _ => rfl
  screen := fun _ => rfl
  keys := rfl
  keyWait := fun _ => ⟨rfl, rfl⟩
  memory := fun _ _ => rfl
  draws := fun _ => rfl
  config := rfl

/-- A block of writes inside memory changes those bytes alone (R56). -/
theorem keeps_writeBytes {s : State} (h : memoryWf s) (a : Nat) (bs : List Byte) (ha : a + bs.length ≤ memSize) :
    Keeps { storeAt := a, storeLen := bs.length } s (writeBytes s a bs) where
  regs := fun r _ => readV_writeBytes s a bs r
  index := fun _ => writeBytes_i s a bs
  pc := fun _ => writeBytes_pc s a bs
  stack := fun _ => writeBytes_stack s a bs
  delay := fun _ => writeBytes_dt s a bs
  sound := fun _ => writeBytes_st s a bs
  screen := fun _ => writeBytes_fb s a bs
  keys := writeBytes_keys s a bs
  keyWait := fun _ => ⟨writeBytes_waiting s a bs, writeBytes_waitX s a bs⟩
  memory := fun a' e => readByte_writeBytes_outside h a bs ha a' e
  draws := fun _ => writeBytes_draws s a bs
  config := writeBytes_config s a bs

/-- A run of `k + 1` steps is a step and a run of `k`. -/
theorem run_succ_of_next {s t : State} (h : step s = .next t) (k : Nat) :
    Host.Core.run Sys2Proof.core (k + 1) s = Host.Core.run Sys2Proof.core k t := by
  have h' : Sys2Proof.core.step s = .next t := h
  simp only [Host.Core.run, h']

end Sys2Proof.Machine
end

