-- ==== Sys2Proof/Laws/HostInterface.lean ====
section
/-!
SUPPORT. What a query, a transaction and one more transaction of a run do (spec/70_reset_and_hazards.md R242 to R246,
R254).
-/

namespace Sys2Proof.Machine

@[simp] theorem transact_query (q : Query) (s : State) : transact (.query q) s = (s, answer q s) := rfl

/-- A read-only query leaves the state as it was. -/
theorem transact_state_of_isQuery {q : Transaction} (h : isQuery q = true) (s : State) : (transact q s).1 = s := by
  cases q <;> first | rfl | cases h

@[simp] theorem runTransactions_nil (s : State) : runTransactions [] s = (s, []) := rfl

/-- A run of one more transaction in front: it acts first, and its outcome stands first (R254). -/
theorem runTransactions_cons (q : Transaction) (qs : List Transaction) (s : State) :
    runTransactions (q :: qs) s =
      ((runTransactions qs (transact q s).1).1, (transact q s).2 :: (runTransactions qs (transact q s).1).2) := rfl

/-- A key index up to 15 answers its key, as the state holds it (R242). -/
theorem getKeyState_of_le (s : State) (k : Fin 16) : getKeyState s k.val = .ok s.keys[k.val] := by
  have hle : k.val ≤ 15 := Nat.le_of_lt_succ k.isLt
  simp [getKeyState, keyState, hle]

/-- A key index above 15 is an error (R242). -/
theorem getKeyState_of_gt (s : State) {k : Nat} (h : 15 < k) : getKeyState s k = .error (.keyIndexOutOfRange k) := by
  simp [getKeyState, Nat.not_le.2 h]

end Sys2Proof.Machine
end

