-- ==== Sys2Proof/Laws/PerInstr.lean ====
section
/-!
SUPPORT. A law per instruction: the word the encoder gives is taken in by the instruction's own row of the opcode map
(spec/30_encoding.md R84, mask and match), and the instruction is well formed (R74).
-/

namespace Sys2Proof.Laws.EncodingRow

def Statement (i : Instr) : Prop := (opcodeRow i).admits (encode i) = true ∧ i.wellFormed = true

/-- Formats `RR` and `RRN` under a mask of the family and the low nibble. -/
theorem admits_RR (op x y n : Nibble) :
    (encodeRR op x y n &&& 0xF00F#16) = encodeRR op 0#4 0#4 n ∧
      (encodeRR op x y n &&& 0xF000#16) = encodeRR op 0#4 0#4 0#4 := by
  constructor
  · change (op ++ x ++ y ++ n) &&& (BitVec.allOnes 4 ++ 0#4 ++ 0#4 ++ BitVec.allOnes 4) = (_ : Word)
    simp only [BitVec.and_append, BitVec.and_allOnes, BitVec.and_zero]; rfl
  · change (op ++ x ++ y ++ n) &&& (BitVec.allOnes 4 ++ 0#4 ++ 0#4 ++ 0#4) = (_ : Word)
    simp only [BitVec.and_append, BitVec.and_allOnes, BitVec.and_zero]; rfl

/-- Formats `RI`, `R` and `O` under a mask of the family and the low byte. -/
theorem admits_RI (op x : Nibble) (kk : Byte) :
    (encodeRI op x kk &&& 0xF0FF#16) = encodeRI op 0#4 kk ∧
      (encodeRI op x kk &&& 0xF000#16) = encodeRI op 0#4 0#8 := by
  constructor
  · change (op ++ x ++ kk) &&& (BitVec.allOnes 4 ++ 0#4 ++ BitVec.allOnes 8) = _
    simp only [BitVec.and_append, BitVec.and_allOnes, BitVec.and_zero]; rfl
  · change (op ++ x ++ kk) &&& (BitVec.allOnes 4 ++ 0#4 ++ 0#8) = _
    simp only [BitVec.and_append, BitVec.and_allOnes, BitVec.and_zero]; rfl

/-- Format `A` under a mask of the family. -/
theorem admits_A (op : Nibble) (nnn : Addr12) : (encodeA op nnn &&& 0xF000#16) = encodeA op 0#12 := by
  change (op ++ nnn) &&& (BitVec.allOnes 4 ++ 0#12) = _
  simp only [BitVec.and_append, BitVec.and_allOnes, BitVec.and_zero]; rfl

theorem cls (u : Nibble) : Statement (.cls u) :=
  ⟨beq_iff_eq.mpr ((admits_RI _ _ _).1), Instr.wellFormed_all _⟩
theorem ret (u : Nibble) : Statement (.ret u) :=
  ⟨beq_iff_eq.mpr ((admits_RI _ _ _).1), Instr.wellFormed_all _⟩
theorem jp (nnn : Addr12) : Statement (.jp nnn) :=
  ⟨beq_iff_eq.mpr (admits_A _ _), Instr.wellFormed_all _⟩
theorem call (nnn : Addr12) : Statement (.call nnn) :=
  ⟨beq_iff_eq.mpr (admits_A _ _), Instr.wellFormed_all _⟩
theorem seImm (x : Nibble) (kk : Byte) : Statement (.seImm x kk) :=
  ⟨beq_iff_eq.mpr ((admits_RI _ _ _).2), Instr.wellFormed_all _⟩
theorem sneImm (x : Nibble) (kk : Byte) : Statement (.sneImm x kk) :=
  ⟨beq_iff_eq.mpr ((admits_RI _ _ _).2), Instr.wellFormed_all _⟩
theorem seReg (x y u : Nibble) : Statement (.seReg x y u) :=
  ⟨beq_iff_eq.mpr ((admits_RR _ _ _ _).2), Instr.wellFormed_all _⟩
theorem ldImm (x : Nibble) (kk : Byte) : Statement (.ldImm x kk) :=
  ⟨beq_iff_eq.mpr ((admits_RI _ _ _).2), Instr.wellFormed_all _⟩
theorem addImm (x : Nibble) (kk : Byte) : Statement (.addImm x kk) :=
  ⟨beq_iff_eq.mpr ((admits_RI _ _ _).2), Instr.wellFormed_all _⟩
theorem ldReg (x y : Nibble) : Statement (.ldReg x y) :=
  ⟨beq_iff_eq.mpr ((admits_RR _ _ _ _).1), Instr.wellFormed_all _⟩
theorem orReg (x y : Nibble) : Statement (.orReg x y) :=
  ⟨beq_iff_eq.mpr ((admits_RR _ _ _ _).1), Instr.wellFormed_all _⟩
theorem andReg (x y : Nibble) : Statement (.andReg x y) :=
  ⟨beq_iff_eq.mpr ((admits_RR _ _ _ _).1), Instr.wellFormed_all _⟩
theorem xorReg (x y : Nibble) : Statement (.xorReg x y) :=
  ⟨beq_iff_eq.mpr ((admits_RR _ _ _ _).1), Instr.wellFormed_all _⟩
theorem addReg (x y : Nibble) : Statement (.addReg x y) :=
  ⟨beq_iff_eq.mpr ((admits_RR _ _ _ _).1), Instr.wellFormed_all _⟩
theorem sub (x y : Nibble) : Statement (.sub x y) :=
  ⟨beq_iff_eq.mpr ((admits_RR _ _ _ _).1), Instr.wellFormed_all _⟩
theorem shr (x y : Nibble) : Statement (.shr x y) :=
  ⟨beq_iff_eq.mpr ((admits_RR _ _ _ _).1), Instr.wellFormed_all _⟩
theorem subn (x y : Nibble) : Statement (.subn x y) :=
  ⟨beq_iff_eq.mpr ((admits_RR _ _ _ _).1), Instr.wellFormed_all _⟩
theorem shl (x y : Nibble) : Statement (.shl x y) :=
  ⟨beq_iff_eq.mpr ((admits_RR _ _ _ _).1), Instr.wellFormed_all _⟩
theorem sneReg (x y u : Nibble) : Statement (.sneReg x y u) :=
  ⟨beq_iff_eq.mpr ((admits_RR _ _ _ _).2), Instr.wellFormed_all _⟩
theorem ldI (nnn : Addr12) : Statement (.ldI nnn) :=
  ⟨beq_iff_eq.mpr (admits_A _ _), Instr.wellFormed_all _⟩
theorem jpV0 (nnn : Addr12) : Statement (.jpV0 nnn) :=
  ⟨beq_iff_eq.mpr (admits_A _ _), Instr.wellFormed_all _⟩
theorem rnd (x : Nibble) (kk : Byte) : Statement (.rnd x kk) :=
  ⟨beq_iff_eq.mpr ((admits_RI _ _ _).2), Instr.wellFormed_all _⟩
theorem drw (x y n : Nibble) : Statement (.drw x y n) :=
  ⟨beq_iff_eq.mpr ((admits_RR _ _ _ _).2), Instr.wellFormed_all _⟩
theorem skp (x : Nibble) : Statement (.skp x) :=
  ⟨beq_iff_eq.mpr ((admits_RI _ _ _).1), Instr.wellFormed_all _⟩
theorem sknp (x : Nibble) : Statement (.sknp x) :=
  ⟨beq_iff_eq.mpr ((admits_RI _ _ _).1), Instr.wellFormed_all _⟩
theorem ldVxDt (x : Nibble) : Statement (.ldVxDt x) :=
  ⟨beq_iff_eq.mpr ((admits_RI _ _ _).1), Instr.wellFormed_all _⟩
theorem ldVxK (x : Nibble) : Statement (.ldVxK x) :=
  ⟨beq_iff_eq.mpr ((admits_RI _ _ _).1), Instr.wellFormed_all _⟩
theorem ldDtVx (x : Nibble) : Statement (.ldDtVx x) :=
  ⟨beq_iff_eq.mpr ((admits_RI _ _ _).1), Instr.wellFormed_all _⟩
theorem ldStVx (x : Nibble) : Statement (.ldStVx x) :=
  ⟨beq_iff_eq.mpr ((admits_RI _ _ _).1), Instr.wellFormed_all _⟩
theorem addI (x : Nibble) : Statement (.addI x) :=
  ⟨beq_iff_eq.mpr ((admits_RI _ _ _).1), Instr.wellFormed_all _⟩
theorem ldF (x : Nibble) : Statement (.ldF x) :=
  ⟨beq_iff_eq.mpr ((admits_RI _ _ _).1), Instr.wellFormed_all _⟩
theorem ldB (x : Nibble) : Statement (.ldB x) :=
  ⟨beq_iff_eq.mpr ((admits_RI _ _ _).1), Instr.wellFormed_all _⟩
theorem storeRegs (x : Nibble) : Statement (.storeRegs x) :=
  ⟨beq_iff_eq.mpr ((admits_RI _ _ _).1), Instr.wellFormed_all _⟩
theorem loadRegs (x : Nibble) : Statement (.loadRegs x) :=
  ⟨beq_iff_eq.mpr ((admits_RI _ _ _).1), Instr.wellFormed_all _⟩

end Sys2Proof.Laws.EncodingRow
end

