-- ==== Sys2Proof/Tests/Slice0.lean ====
section
/-!
SUPPORT. Small tests. Expected results are the vectors of spec/95_test_vectors.md (named E1, CF3, A6 and so on) or
words written out by hand from spec/30_encoding.md R84, and one witness for each statement that has hypotheses.
-/

namespace Sys2Proof.Tests

open Sys2Proof Sys2Proof.Machine

/-! ### Helpers -/

/-- The state after reset with some registers set. -/
def regs (vs : List (Nibble × Byte)) : State := vs.foldl (fun s p => writeV s p.1 p.2) State.reset

/-- One tick that runs the word. -/
def run (w : Nat) (s : State) : Result := step (s.withFetchWord 16 w)

/-- What a tick leaves in one field, or nothing when it reports an error. -/
def field {α : Type} (f : State → α) (r : Result) : Option α :=
  match r with
  | .next t => some (f t)
  | .fault _ => none
  | .refused _ => none

/-- The error a tick reports. -/
def errorOf (r : Result) : Option Fault :=
  match r with
  | .next _ => none
  | .fault e => some e
  | .refused _ => none

/-- The state after reset with `I` set and bytes written from there. -/
def dataAt (i : Word) (bs : List Byte) (s : State) : State := writeBytes (setI s i) i.toNat bs

/-- `n` bytes as a list. -/
def peek (a n : Nat) (s : State) : List Byte := readBytes s a n

/-- The pixels of row `y` from column `x` on, `n` of them. -/
def rowOf (y : Fin 32) (x n : Nat) (s : State) : List Bool :=
  (List.range n).map fun k => pixel s.fb (Fin.ofNat 64 (x + k)) y

/-- The state with some pixels set. -/
def withPixels (ps : List (Fin 64 × Fin 32)) (s : State) : State :=
  { s with fb := ps.foldl (fun fb p => setPixel fb p.1 p.2 true) s.fb }

/-- A field read off a tick shows that it completed. -/
theorem next_of_field {α : Type} {f : State → α} {r : Result} {a : α} (h : field f r = some a) :
    ∃ t, r = .next t ∧ f t = a := by
  cases r with
  | next t => exact ⟨t, rfl, by simpa [field] using h⟩
  | fault e => cases h
  | refused e => cases h

/-! ### Decoding: one word per constructor, written from R84 -/

theorem test_decode_cls : decodeTableWord 16 0x00E0 = some (.cls 0#4) := by decide
theorem test_decode_cls_ignored_bits : decodeTableWord 16 0x0FE0 = some (.cls 15#4) := by decide
theorem test_decode_ret : decodeTableWord 16 0x00EE = some (.ret 0#4) := by decide
theorem test_decode_jp : decodeTableWord 16 0x1234 = some (.jp 0x234#12) := by decide
theorem test_decode_call : decodeTableWord 16 0x2210 = some (.call 0x210#12) := by decide
theorem test_decode_seImm : decodeTableWord 16 0x3307 = some (.seImm 3#4 7#8) := by decide
theorem test_decode_sneImm : decodeTableWord 16 0x4BFE = some (.sneImm 0xB#4 0xFE#8) := by decide
theorem test_decode_seReg : decodeTableWord 16 0x5120 = some (.seReg 1#4 2#4 0#4) := by decide
theorem test_decode_seReg_ignored_bits : decodeTableWord 16 0x5121 = some (.seReg 1#4 2#4 1#4) := by decide
theorem test_decode_ldImm : decodeTableWord 16 0x6A42 = some (.ldImm 10#4 0x42#8) := by decide
theorem test_decode_addImm : decodeTableWord 16 0x7101 = some (.addImm 1#4 1#8) := by decide
theorem test_decode_ldReg : decodeTableWord 16 0x8120 = some (.ldReg 1#4 2#4) := by decide
theorem test_decode_orReg : decodeTableWord 16 0x8121 = some (.orReg 1#4 2#4) := by decide
theorem test_decode_andReg : decodeTableWord 16 0x8122 = some (.andReg 1#4 2#4) := by decide
theorem test_decode_xorReg : decodeTableWord 16 0x8123 = some (.xorReg 1#4 2#4) := by decide
theorem test_decode_addReg : decodeTableWord 16 0x8234 = some (.addReg 2#4 3#4) := by decide
theorem test_decode_sub : decodeTableWord 16 0x8125 = some (.sub 1#4 2#4) := by decide
theorem test_decode_shr : decodeTableWord 16 0x8126 = some (.shr 1#4 2#4) := by decide
theorem test_decode_subn : decodeTableWord 16 0x8127 = some (.subn 1#4 2#4) := by decide
theorem test_decode_shl : decodeTableWord 16 0x812E = some (.shl 1#4 2#4) := by decide
theorem test_decode_sneReg : decodeTableWord 16 0x9120 = some (.sneReg 1#4 2#4 0#4) := by decide
theorem test_decode_ldI : decodeTableWord 16 0xA300 = some (.ldI 0x300#12) := by decide
theorem test_decode_jpV0 : decodeTableWord 16 0xBFFF = some (.jpV0 0xFFF#12) := by decide
theorem test_decode_rnd : decodeTableWord 16 0xC30F = some (.rnd 3#4 0x0F#8) := by decide
theorem test_decode_drw : decodeTableWord 16 0xD123 = some (.drw 1#4 2#4 3#4) := by decide
theorem test_decode_skp : decodeTableWord 16 0xE19E = some (.skp 1#4) := by decide
theorem test_decode_sknp : decodeTableWord 16 0xE1A1 = some (.sknp 1#4) := by decide
theorem test_decode_ldVxDt : decodeTableWord 16 0xF107 = some (.ldVxDt 1#4) := by decide
theorem test_decode_ldVxK : decodeTableWord 16 0xF30A = some (.ldVxK 3#4) := by decide
theorem test_decode_ldDtVx : decodeTableWord 16 0xF215 = some (.ldDtVx 2#4) := by decide
theorem test_decode_ldStVx : decodeTableWord 16 0xF218 = some (.ldStVx 2#4) := by decide
theorem test_decode_addI : decodeTableWord 16 0xF21E = some (.addI 2#4) := by decide
theorem test_decode_ldF : decodeTableWord 16 0xF529 = some (.ldF 5#4) := by decide
theorem test_decode_ldB : decodeTableWord 16 0xF033 = some (.ldB 0#4) := by decide
theorem test_decode_storeRegs : decodeTableWord 16 0xF255 = some (.storeRegs 2#4) := by decide
theorem test_decode_loadRegs : decodeTableWord 16 0xF265 = some (.loadRegs 2#4) := by decide

/-- E1. -/
theorem test_fields_of_D221 :
    fields 0xD221#16 = { op := 0xD#4, x := 2#4, y := 2#4, n := 1#4, kk := 0x21#8, nnn := 0x221#12 } := by decide

/-- E2, E3, E6, E7, E8: illegal words raise `InvalidOpcode` of the word. -/
theorem test_illegal_words :
    [0x0000, 0x0123, 0x8128, 0x812D, 0x812F, 0xE100, 0xF0FF, 0xF000, 0xF019, 0xF030, 0xF075].map
      (fun w => errorOf (run w State.reset))
      = [0x0000#16, 0x0123#16, 0x8128#16, 0x812D#16, 0x812F#16, 0xE100#16, 0xF0FF#16, 0xF000#16, 0xF019#16, 0xF030#16,
          0xF075#16].map (fun w => some (.invalidOpcode w)) := by decide

/-- E2, E10: an illegal word advances `PC` and does not count the timers down. -/
theorem test_illegal_word_state :
    (tick { State.reset with dt := 5#8 } |>.1).dt = 5#8 ∧ (tick { State.reset with dt := 5#8 } |>.1).pc = 0x202#16 := by
  decide

/-! ### Well-formedness: what each check refuses (R71, R73, R74, R8, R232) -/

theorem test_wellFormed_accepts : ({ x := 15, y := 15, n := 15, kk := 255, nnn := 4095 } : Operands).wellFormed = true := by
  decide
theorem test_wellFormed_refuses_x16 : ({ x := 16 } : Operands).wellFormed = false := by decide
theorem test_wellFormed_refuses_y16 : ({ y := 16 } : Operands).wellFormed = false := by decide
theorem test_wellFormed_refuses_n16 : ({ n := 16 } : Operands).wellFormed = false := by decide
theorem test_wellFormed_refuses_kk256 : ({ kk := 256 } : Operands).wellFormed = false := by decide
theorem test_wellFormed_refuses_nnn4096 : ({ nnn := 4096 } : Operands).wellFormed = false := by decide
theorem test_wellFormed_refuses_stack_depth_zero : ({ defaultConfig with stackDepth := 0 } : Config).wellFormed = false := by
  decide
theorem test_wellFormed_default_config : defaultConfig.wellFormed = true := by decide
theorem test_image_of_3584_fits : imageFits (List.replicate 3584 0#8) = true := by
  simp only [imageFits, List.length_replicate]; decide
theorem test_image_of_3585_refused : imageFits (List.replicate 3585 0#8) = false := by
  simp only [imageFits, List.length_replicate]; decide

/-! ### Control flow (95_test_vectors.md section 2.2) -/

/-- CF1. -/
theorem test_jp : field (·.pc) (run 0x1234 State.reset) = some 0x234#16 := by decide
/-- CF3. -/
theorem test_call :
    field (fun t => (t.stack, t.pc)) (run 0x2210 { State.reset with pc := 0x204#16 }) = some ([0x206#16], 0x210#16) := by
  decide
/-- CF6. -/
theorem test_call_overflow :
    errorOf (run 0x2300 { State.reset with stack := List.replicate 16 0x300#16 }) = some .stackOverflow := by decide
/-- CF4, E5. -/
theorem test_ret :
    field (fun t => (t.stack, t.pc)) (run 0x05EE { State.reset with stack := [0x300#16, 0x206#16] })
      = some ([0x300#16], 0x206#16) := by decide
/-- CF5. -/
theorem test_ret_underflow : errorOf (run 0x00EE State.reset) = some .stackUnderflow := by decide
/-- CF8. -/
theorem test_seImm_skips : field (·.pc) (run 0x3307 (regs [(3, 7)])) = some 0x204#16 := by decide
/-- CF9. -/
theorem test_seImm_stays : field (·.pc) (run 0x3307 (regs [(3, 8)])) = some 0x202#16 := by decide
/-- CF10. -/
theorem test_sneImm_skips : field (·.pc) (run 0x4307 (regs [(3, 8)])) = some 0x204#16 := by decide
/-- CF10. -/
theorem test_sneImm_stays : field (·.pc) (run 0x4307 (regs [(3, 7)])) = some 0x202#16 := by decide
/-- CF11, E9. -/
theorem test_seReg_skips : field (·.pc) (run 0x5121 (regs [(1, 3), (2, 3)])) = some 0x204#16 := by decide
/-- CF13. -/
theorem test_sneReg_skips : field (·.pc) (run 0x9120 (regs [(1, 0x10), (2, 0x11)])) = some 0x204#16 := by decide
/-- CF14. -/
theorem test_sneReg_same_register : field (·.pc) (run 0x9110 (regs [(1, 0x10)])) = some 0x202#16 := by decide
/-- CF15. -/
theorem test_jpV0 : field (·.pc) (run 0xB300 (regs [(0, 0x10)])) = some 0x310#16 := by decide
/-- CF16: the sum is not truncated, and the next tick's fetch fails with nothing changed. -/
theorem test_jpV0_past_memory :
    field (fun t => (t.pc, (tick t).2, (tick t).1.pc)) (run 0xBFFF (regs [(0, 0xFF)]))
      = some (0x10FE#16, .err .memoryOutOfBounds, 0x10FE#16) := by decide
/-- CF18: a skip at the end of memory. -/
theorem test_skip_at_end_of_memory :
    field (·.pc) (run 0x3000 { State.reset with pc := 0xFFE#16 }) = some 0x1002#16 := by decide

/-! ### Arithmetic and logic (section 2.3) -/

/-- A1, W1. -/
theorem test_ldImm : field (readV · 0xA) (run 0x6A42 State.reset) = some 0x42#8 := by decide
/-- A2: no carry flag. -/
theorem test_addImm_wraps :
    field (fun t => (readV t 1, readV t 15)) (run 0x7101 (regs [(1, 0xFF), (15, 0x55)])) = some (0#8, 0x55#8) := by decide
/-- A5. -/
theorem test_logic_family :
    [0x8120, 0x8121, 0x8122, 0x8123].map (fun w => field (fun t => (readV t 1, readV t 2)) (run w (regs [(1, 0xF0), (2, 0x3C)])))
      = [some (0x3C#8, 0x3C#8), some (0xFC#8, 0x3C#8), some (0x30#8, 0x3C#8), some (0xCC#8, 0x3C#8)] := by decide
/-- W2. -/
theorem test_addReg : field (fun t => (readV t 2, readV t 15, readV t 3)) (run 0x8234 (regs [(2, 200), (3, 100)]))
    = some (44#8, 1#8, 100#8) := by decide
/-- A9, A10: flag last for `x = 15`, old `VF` read for `y = 15`. -/
theorem test_addReg_flag_register :
    field (readV · 15) (run 0x8F14 (regs [(15, 0x10), (1, 0xF5)])) = some 1#8 ∧
    field (fun t => (readV t 1, readV t 15)) (run 0x81F4 (regs [(1, 1), (15, 1)])) = some (2#8, 0#8) := by decide
/-- A11. -/
theorem test_sub : field (fun t => (readV t 1, readV t 15)) (run 0x8125 (regs [(1, 5), (2, 7)])) = some (0xFE#8, 0#8) := by
  decide
/-- A11: equal operands, no borrow; A12: `x = 15`. -/
theorem test_sub_corners :
    field (fun t => (readV t 1, readV t 15)) (run 0x8125 (regs [(1, 7), (2, 7)])) = some (0#8, 1#8) ∧
    field (readV · 15) (run 0x8F15 (regs [(15, 3), (1, 5)])) = some 0#8 := by decide
/-- A13: `V[y]` plays no part. -/
theorem test_shr :
    field (fun t => (readV t 1, readV t 15, readV t 2)) (run 0x8126 (regs [(1, 5), (2, 0x99)])) = some (2#8, 1#8, 0x99#8) := by
  decide
/-- A14. -/
theorem test_shr_flag_register : field (readV · 15) (run 0x8F06 (regs [(15, 3)])) = some 1#8 := by decide
/-- A15. -/
theorem test_subn :
    field (fun t => (readV t 1, readV t 15)) (run 0x8127 (regs [(1, 5), (2, 7)])) = some (2#8, 1#8) ∧
    field (fun t => (readV t 1, readV t 15)) (run 0x8127 (regs [(1, 7), (2, 5)])) = some (0xFE#8, 0#8) := by decide
/-- A16. -/
theorem test_shl :
    field (fun t => (readV t 1, readV t 15)) (run 0x810E (regs [(1, 0x81)])) = some (2#8, 1#8) ∧
    field (fun t => (readV t 1, readV t 15)) (run 0x810E (regs [(1, 0x40)])) = some (0x80#8, 0#8) := by decide
/-- A17. -/
theorem test_shl_flag_register : field (readV · 15) (run 0x8F0E (regs [(15, 0x80)])) = some 1#8 := by decide
/-- A18: a draw is taken even when the mask is 0, and the result is 0 whatever was drawn. -/
theorem test_rnd : field (fun t => (readV t 3, t.draws)) (run 0xC300 State.reset) = some (0#8, 1) := by
  show some (Config.rand8 0 &&& 0#8, 1) = _
  simp

/-! ### Index register and memory (section 2.4) -/

/-- M1. -/
theorem test_ldI : field (·.i) (run 0xA300 State.reset) = some 0x300#16 := by decide
/-- M3: past 0xFFF with no flag and no error. -/
theorem test_addI :
    field (fun t => (t.i, readV t 15)) (run 0xF21E (setI (regs [(2, 1)]) 0xFFF#16)) = some (0x1000#16, 0#8) := by decide
/-- M4. -/
theorem test_addI_wraps : field (·.i) (run 0xF21E (setI (regs [(2, 1)]) 0xFFFF#16)) = some 0#16 := by decide
/-- M5, M6: the glyph of 5, the low nibble by default. -/
theorem test_ldF : field (·.i) (run 0xF529 (regs [(5, 5)])) = some 0x69#16 ∧
    field (·.i) (run 0xF529 (regs [(5, 0x1A)])) = some 0x82#16 := by decide
/-- M6: the whole byte under `FONT_DIGIT_MODE = full_byte`. -/
theorem test_ldF_full_byte :
    field (·.i) (run 0xF529 { regs [(5, 0xFF)] with config := { defaultConfig with fontDigitMode := .fullByte } })
      = some 0x54B#16 := by decide
/-- W4. -/
theorem test_ldB :
    field (fun t => (peek 0x300 3 t, t.i)) (run 0xF033 (setI (regs [(0, 157)]) 0x300#16))
      = some ([1#8, 5#8, 7#8], 0x300#16) := by decide
/-- M10, M11: the last three bytes of memory, and one past. -/
theorem test_ldB_end_of_memory :
    field (peek 0xFFD 3) (run 0xF033 (setI (regs [(0, 9)]) 0xFFD#16)) = some [0#8, 0#8, 9#8] ∧
    errorOf (run 0xF033 (setI State.reset 0xFFE#16)) = some .memoryOutOfBounds := by decide
/-- M8. -/
theorem test_storeRegs :
    field (fun t => (peek 0x300 4 t, t.i)) (run 0xF255 (setI (regs [(0, 0x11), (1, 0x22), (2, 0x33), (3, 0x44)]) 0x300#16))
      = some ([0x11#8, 0x22#8, 0x33#8, 0#8], 0x303#16) := by decide
/-- M12, M13. -/
theorem test_storeRegs_end_of_memory :
    field (·.i) (run 0xFF55 (setI State.reset 0xFF0#16)) = some 0x1000#16 ∧
    errorOf (run 0xFF55 (setI State.reset 0xFF1#16)) = some .memoryOutOfBounds := by decide
/-- M15: `VF` is loaded as a register. -/
theorem test_loadRegs_all :
    field (fun t => (readV t 0, readV t 15, t.i))
      (run 0xFF65 (writeByte (writeByte (setI State.reset 0x300#16) 0x300 0x66#8) 0x30F 0x77#8))
      = some (0x66#8, 0x77#8, 0x310#16) := by decide
/-- M8: registers above `x` stay. -/
theorem test_loadRegs_some :
    field (fun t => (readV t 0, readV t 1, readV t 2)) (run 0xF165 (dataAt 0x300#16 [1#8, 2#8, 3#8] (regs [(2, 9)])))
      = some (1#8, 2#8, 9#8) := by decide

/-! ### Display (section 2.5) -/

/-- D1. -/
theorem test_cls :
    field (fun t => (t.fb, readV t 15)) (run 0x00E0 (withPixels [(0, 0), (63, 31)] (regs [(15, 0x42)])))
      = some (clearFramebuffer, 0x42#8) := by decide
/-- W3, D2: no collision where the sprite's bits are 0. -/
theorem test_drw_no_collision :
    field (fun t => (rowOf 0 0 9 t, readV t 15))
      (run 0xD221 (withPixels [(1, 0), (3, 0), (4, 0), (5, 0), (6, 0), (7, 0)] (dataAt 0x300#16 [0xA0#8] State.reset)))
      = some ([true, true, true, true, true, true, true, true, false], 0#8) := by decide
/-- D6: the collision flag is of all pixels, not of the last. -/
theorem test_drw_collision :
    field (fun t => (rowOf 0 0 3 t, readV t 15)) (run 0xD011 (withPixels [(0, 0)] (dataAt 0x300#16 [0xC0#8] State.reset)))
      = some ([false, true, false], 1#8) := by decide
/-- D3: columns wrap within the row. -/
theorem test_drw_wraps_columns :
    field (fun t => (rowOf 0 62 9 t, rowOf 1 0 8 t)) (run 0xD011 (dataAt 0x300#16 [0xFF#8] (regs [(0, 62)])))
      = some ([true, true, true, true, true, true, true, true, false], List.replicate 8 false) := by decide
/-- D4, D5: rows wrap, and an anchor outside the grid is reduced. -/
theorem test_drw_wraps_rows :
    field (fun t => (rowOf 31 0 1 t, rowOf 0 0 1 t)) (run 0xD012 (dataAt 0x300#16 [0x80#8, 0x80#8] (regs [(1, 31)])))
      = some ([true], [true]) ∧
    field (rowOf 8 2 3) (run 0xD011 (dataAt 0x300#16 [0x80#8] (regs [(0, 67), (1, 40)]))) = some [false, true, false] := by
  decide
/-- D7, D8, D9: no row reads no memory; the range check; the anchor is the old `VF`. -/
theorem test_drw_corners :
    field (readV · 15) (run 0xD010 (setI (regs [(15, 1)]) 0xFFF#16)) = some 0#8 ∧
    errorOf (run 0xD013 (setI State.reset 0xFFE#16)) = some .memoryOutOfBounds ∧
    field (fun t => (rowOf 0 4 3 t, readV t 15)) (run 0xDF11 (dataAt 0x300#16 [0x80#8] (regs [(15, 5)])))
      = some ([false, true, false], 0#8) := by decide

/-! ### Keys and timers (section 2.6) -/

/-- K1. -/
theorem test_skp :
    field (·.pc) (run 0xE19E (writeKey (regs [(1, 0xA)]) 0xA#4 true)) = some 0x204#16 ∧
    field (·.pc) (run 0xE19E (regs [(1, 0xA)])) = some 0x202#16 := by decide
/-- K3. -/
theorem test_skp_key_index :
    errorOf (run 0xE19E (regs [(1, 0x10)])) = some (.keyIndexOutOfRange 0x10) ∧
    field (·.pc) (run 0xE19E { writeKey (regs [(1, 0x10)]) 0#4 true with config := { defaultConfig with keyIndexMode := .lowNibble } })
      = some 0x204#16 := by decide
/-- K2. -/
theorem test_sknp :
    field (·.pc) (run 0xE1A1 (regs [(1, 0xA)])) = some 0x204#16 ∧
    field (·.pc) (run 0xE1A1 (writeKey (regs [(1, 0xA)]) 0xA#4 true)) = some 0x202#16 := by decide
/-- K4. -/
theorem test_ldVxDt :
    field (fun t => (readV t 1, t.dt)) (run 0xF107 { State.reset with dt := 4#8 }) = some (4#8, 3#8) := by decide
/-- K5. -/
theorem test_ldDtVx : field (·.dt) (run 0xF215 (regs [(2, 5)])) = some 4#8 ∧ field (·.dt) (run 0xF215 State.reset) = some 0#8 := by
  decide
/-- K6. -/
theorem test_ldStVx : field (·.st) (run 0xF218 (regs [(2, 1)])) = some 0#8 ∧ field (·.st) (run 0xF218 (regs [(2, 2)])) = some 1#8 := by
  decide
/-- K7. -/
theorem test_ldVxK :
    field (fun t => (t.waiting, t.waitX, t.pc, t.dt)) (run 0xF30A { State.reset with dt := 5#8 })
      = some (true, 3#4, 0x202#16, 4#8) := by decide
/-- K7: a waiting tick fetches nothing and counts the timers. -/
theorem test_waiting_tick :
    field (fun t => (t.waiting, t.pc, t.dt)) (step { State.reset with waiting := true, dt := 4#8 })
      = some (true, 0x200#16, 3#8) := by decide
/-- K8, K9: only a press completes the wait. -/
theorem test_setKey :
    let s : State := { State.reset with waiting := true, waitX := 3#4 }
    (readV (setKey 7 true s).1 3, (setKey 7 true s).1.waiting, keyState (setKey 7 true s).1 7#4) = (7#8, false, true) ∧
    (readV (setKey 7 false s).1 3, (setKey 7 false s).1.waiting) = (0#8, true) := by decide
/-- K12: `handle_opcode` does not count the timers down. -/
theorem test_handleOpcode :
    (handleOpcode 0xF015#16 (regs [(0, 3)])).1.dt = 3#8 ∧ (handleOpcode 0xF015#16 (regs [(0, 3)])).1.pc = 0x200#16 := by decide

/-! ### Host interface (section 2.7) -/

/-- H3. -/
theorem test_setKey_range : (setKey 16 true State.reset).2 = .err (.keyIndexOutOfRange 16) := by decide
/-- H4. -/
theorem test_getPixel_range : getPixel State.reset 64 0 = none ∧ getPixel State.reset 63 31 = some 0 := by decide
/-- H5: an error of the fetch leaves the state before the tick. -/
theorem test_fetch_error :
    (tick { State.reset with pc := 0xFFF#16, dt := 5#8 }).2 = .err .memoryOutOfBounds ∧
    (tick { State.reset with pc := 0xFFF#16, dt := 5#8 }).1.pc = 0xFFF#16 ∧
    (tick { State.reset with pc := 0xFFF#16, dt := 5#8 }).1.dt = 5#8 := by decide
/-- H6. -/
theorem test_handleOpcode_error :
    (handleOpcode 0x00EE#16 State.reset).2 = .err .stackUnderflow ∧ (handleOpcode 0x00EE#16 State.reset).1.pc = 0x200#16 := by
  decide
/-- R33: rows of the default font (digit 5 as in P3). -/
theorem test_font : peek 0x69 5 State.reset = [0xF0#8, 0x80#8, 0xF0#8, 0x10#8, 0xF0#8] := by decide
/-- P1's first word, loaded and run from reset. -/
theorem test_load_and_tick :
    field (fun t => (readV t 0, t.pc)) (step (load [0x60#8, 0x05#8] State.reset).1) = some (5#8, 0x202#16) := by decide
/-- R6, R254, H3, H4: queries stand in a run, and each reports its own outcome. -/
theorem test_queries_in_a_run :
    (runTransactions [.setKey 3 true, .query (.keyState 3), .query (.keyState 16), .query (.pixel 64 0), .tick,
        .query .pc] State.reset).2
      = [.ok, .answer (.flag true), .err (.keyIndexOutOfRange 16), .noAnswer, .err (.invalidOpcode 0#16),
          .answer (.word 0x202#16)] := by decide
/-- H9: reset ends a key-wait and keeps the count of draws. -/
theorem test_reset_in_place :
    (resetInPlace { State.reset with waiting := true, draws := 7, pc := 0x300#16 }).waiting = false ∧
    (resetInPlace { State.reset with waiting := true, draws := 7, pc := 0x300#16 }).draws = 7 ∧
    (resetInPlace { State.reset with waiting := true, draws := 7, pc := 0x300#16 }).pc = 0x200#16 := by decide

/-! ### Witnesses: for each statement with hypotheses, a state and operands that meet them, per clause -/

/-- Registers 2 and 3 hold 200 and 100, `I` is 0x300. -/
def sample : State := setI (regs [(2, 200), (3, 100), (15, 5)]) 0x300#16

theorem witness_DecodeOfEncodeGivesInstruction : (Instr.drw 15#4 15#4 15#4).wellFormed = true := by decide

theorem witness_EncodeOfDecodeGivesWord : decodeWord 0x5121#16 = .ok (.seReg 1#4 2#4 1#4) := by decide

/-- Both clauses: a word that decodes, and a row that admits it. -/
theorem witness_DecodeFollowsOpcodeMap :
    decodeWord 0x0FEE#16 = .ok (.ret 15#4) ∧ (opcodeRow (.ret 0#4)).admits 0x0FEE#16 = true := by decide

/-- One illegal word of each family at an end of its range. -/
theorem witness_IllegalWordsAreExactlyTheListed :
    [0x00E1#16, 0x8008#16, 0x8FFD#16, 0x8FFF#16, 0xE09F#16, 0xF066#16].map decodeWord
      = [0x00E1#16, 0x8008#16, 0x8FFD#16, 0x8FFF#16, 0xE09F#16, 0xF066#16].map (fun w => .error (.invalidOpcode w)) := by
  decide

/-- At the last address a word fits. -/
theorem witness_StepRunsDecodedInstruction :
    ∃ (s : State) (i : Instr), s.waiting = false ∧ s.pc.toNat + 1 ≤ 0xFFF ∧
      decodeBytes [readByte s s.pc.toNat, readByte s (s.pc.toNat + 1)] = .ok (i, []) ∧ i.wellFormed = true :=
  ⟨writeBytes { State.reset with pc := 0xFFE#16 } 0xFFE [0x6A#8, 0x42#8], .ldImm 10#4 0x42#8, by decide⟩

/-- An image that fills memory. -/
theorem witness_FetchIsBigEndian :
    ∃ (s : State) (ws : List Word), memoryWf s ∧ 2 * ws.length = 0xE00 ∧ 0 < ws.length :=
  ⟨State.reset, List.replicate 1792 0x1234#16, rfl, by simp only [List.length_replicate], by
    simp only [List.length_replicate]; decide⟩

/-- Both ways a tick completes: with an instruction, and waiting. -/
theorem witness_EveryTickCountsBothTimersDown :
    (∃ t, step (State.reset.withFetchWord 16 0xF215) = .next t) ∧
    (∃ t, step { State.reset with waiting := true } = .next t) := ⟨⟨_, rfl⟩, ⟨_, rfl⟩⟩

theorem witness_WaitingTicksOnlyCountTimers : ({ State.reset with waiting := true, dt := 9#8 } : State).waiting = true := rfl

theorem witness_ParkedEngineChangesOnlyTimers : Parked (State.reset.withFetchWord 16 0x1200) :=
  ⟨by decide, by decide, 0x200#12, by decide, by decide⟩

/-- Each clause: the fetch at the last byte, an error of a tick in either place, an error of `handle_opcode`. -/
theorem witness_ErrorsLeaveAPreciseState :
    (∃ s : State, s.waiting = false ∧ 0xFFF < s.pc.toNat + 1 ∧ s.pc = 0xFFF#16) ∧
    (∃ s t, tick s = (t, .err .memoryOutOfBounds)) ∧
    (∃ s t, tick s = (t, .err .stackUnderflow)) ∧
    (∃ s t, handleOpcode 0x00EE#16 s = (t, .err .stackUnderflow)) :=
  ⟨⟨{ State.reset with pc := 0xFFF#16 }, by decide⟩, ⟨{ State.reset with pc := 0xFFF#16 }, _, rfl⟩,
    ⟨State.reset.withFetchWord 16 0x00EE, _, rfl⟩, ⟨State.reset, _, rfl⟩⟩

theorem witness_HandleOpcodeIsExecuteAlone :
    decodeWord 0xF015#16 = .ok (.ldDtVx 0#4) ∧ ∃ t, exec (.ldDtVx 0#4) sample = .next t := ⟨by decide, _, rfl⟩

/-- Each row of the table at the first value it covers. -/
theorem witness_InstructionErrorsAreExactlyTheTable :
    exec (.ret 0#4) State.reset = .fault .stackUnderflow ∧
    exec (.call 0#12) { State.reset with stack := List.replicate 16 0#16 } = .fault .stackOverflow ∧
    exec (.drw 0#4 0#4 1#4) (setI State.reset 0x1000#16) = .fault .memoryOutOfBounds ∧
    exec (.ldB 0#4) (setI State.reset 0xFFE#16) = .fault .memoryOutOfBounds ∧
    exec (.storeRegs 15#4) (setI State.reset 0xFF1#16) = .fault .memoryOutOfBounds ∧
    exec (.loadRegs 0#4) (setI State.reset 0x1000#16) = .fault .memoryOutOfBounds ∧
    exec (.sknp 1#4) (regs [(1, 16)]) = .fault (.keyIndexOutOfRange 16) := ⟨rfl, rfl, rfl, rfl, rfl, rfl, rfl⟩

theorem witness_StackUnderflowOnlyFromReturn :
    exec (.ret 0#4) State.reset = .fault .stackUnderflow ∧
    (transact .tick (State.reset.withFetchWord 16 0x00EE)).2 = .err .stackUnderflow ∧
    (transact (.handleOpcode 0x00EE#16) State.reset).2 = .err .stackUnderflow := ⟨rfl, rfl, rfl⟩

/-- A full call stack and one stored byte, the high byte of a `6xkk` word at 0x200. -/
def full : State := { State.reset with stack := List.replicate 16 0x202#16, mem := [(0x200, 0x60#8)] }

theorem full_inv : Inv full := ⟨by show Memory.wf _ _ = true; decide, by decide⟩

theorem witness_StepKeepsInvariant :
    Inv full ∧ full.stack.length = full.config.stackDepth ∧ full.mem ≠ [] ∧ ∃ t, step full = .next t ∧ readV t 0#4 = 0#8 :=
  ⟨full_inv, by decide, by decide, next_of_field (f := (readV · 0#4)) (by decide)⟩

theorem witness_TransactionsKeepInvariant : Inv full ∧ full.mem ≠ [] := ⟨full_inv, by decide⟩

/-- `RET` in the last two bytes of memory, its return address just past them. -/
def atEnd : State := writeBytes { State.reset with pc := 0xFFE#16, stack := [0x1000#16] } 0xFFE [0x00#8, 0xEE#8]

/-- At both bounds, with a tick that completes. -/
theorem witness_StepKeepsPcInRange :
    PcInRange atEnd ∧ (∃ t, step atEnd = .next t ∧ t.pc = 0x1000#16) ∧
    PcInRange { State.reset with pc := 0x10FE#16 } :=
  ⟨⟨by decide, List.forall_mem_singleton.2 (by decide)⟩, next_of_field (f := (·.pc)) (by decide),
    ⟨by decide, nofun⟩⟩

/-- A transaction that changes a key, and an instruction that completes. -/
theorem witness_KeysChangeOnlyByHost :
    (∃ t, exec (.skp 0#4) State.reset = .next t) ∧ (transact (.setKey 15 true) State.reset).1.keys ≠ State.reset.keys :=
  ⟨⟨_, rfl⟩, by decide⟩

/-- An instruction that writes the flag as a side effect, one that does not, and the flag changing. -/
theorem witness_FlagSideEffectsAreExactlyTheListed :
    ¬ destinations (.addReg 2#4 3#4) flagReg ∧ writesFlag (.addReg 2#4 3#4) = true ∧
    ¬ destinations (.addImm 2#4 3#8) flagReg ∧ writesFlag (.addImm 2#4 3#8) = false ∧
    ∃ t, exec (.addReg 2#4 3#4) sample = .next t ∧ readV t flagReg ≠ readV sample flagReg :=
  ⟨by show ¬ (_ = _); decide, rfl, by show ¬ (_ = _); decide, rfl, _, rfl, by decide⟩

/-- Each clause: an instruction that does change the piece of state. -/
theorem witness_EachPieceOfStateHasItsWriters :
    (∃ t, exec (.ldI 1#12) sample = .next t ∧ t.i ≠ sample.i) ∧
    (∃ t, exec (.jp 1#12) sample = .next t ∧ t.pc ≠ sample.pc) ∧
    (∃ t, exec (.call 1#12) sample = .next t ∧ t.stack ≠ sample.stack) ∧
    (∃ t, exec (.ldDtVx 2#4) sample = .next t ∧ t.dt ≠ sample.dt) ∧
    (∃ t, exec (.ldStVx 2#4) sample = .next t ∧ t.st ≠ sample.st) ∧
    (∃ t, exec (.cls 0#4) (withPixels [(1, 1)] sample) = .next t ∧ t.fb ≠ (withPixels [(1, 1)] sample).fb) ∧
    (∃ t, exec (.ldVxK 2#4) sample = .next t ∧ t.waiting ≠ sample.waiting) ∧
    (∃ t, exec (.rnd 2#4 0#8) sample = .next t ∧ t.draws ≠ sample.draws) :=
  ⟨⟨_, rfl, by decide⟩, ⟨_, rfl, by decide⟩, ⟨_, rfl, by decide⟩, ⟨_, rfl, by decide⟩, ⟨_, rfl, by decide⟩,
    ⟨_, rfl, by decide⟩, ⟨_, rfl, by decide⟩, ⟨_, rfl, by decide⟩⟩

/-- A destination changes, and `VF` changes without being one. -/
theorem witness_RegistersChangeOnlyAsDestinationOrFlag :
    ∃ t, exec (.addReg 2#4 3#4) sample = .next t ∧ readV t 2#4 ≠ readV sample 2#4 ∧ readV t 15#4 ≠ readV sample 15#4 :=
  ⟨_, rfl, by decide, by decide⟩

/-- Both clauses, at the last byte stored. -/
theorem witness_OnlyBcdAndBlockStoreWriteMemory :
    memoryWf sample ∧
    (∃ t, exec (.ldB 3#4) sample = .next t ∧ readByte t 0x300 ≠ readByte sample 0x300) ∧
    (∃ t, exec (.storeRegs 3#4) sample = .next t ∧ readByte t 0x303 ≠ readByte sample 0x303) :=
  ⟨rfl, ⟨_, rfl, by decide⟩, ⟨_, rfl, by decide⟩⟩

/-- An instruction of the third clause. -/
theorem witness_IndexIsReadOnlyByItsReaders :
    (∀ nnn, Instr.ldImm 1#4 1#8 ≠ .ldI nnn) ∧ (∀ x, Instr.ldImm 1#4 1#8 ≠ .ldF x) ∧
    (∀ x y n, Instr.ldImm 1#4 1#8 ≠ .drw x y n) ∧
    ∀ x, Instr.ldImm 1#4 1#8 ≠ .addI x ∧ Instr.ldImm 1#4 1#8 ≠ .ldB x ∧ Instr.ldImm 1#4 1#8 ≠ .storeRegs x ∧
      Instr.ldImm 1#4 1#8 ≠ .loadRegs x :=
  ⟨nofun, nofun, nofun, fun _ => ⟨nofun, nofun, nofun, nofun⟩⟩

/-- `Dxyn` meets the clauses that exclude readers; the others name their instruction. -/
theorem witness_TimersKeysAndWaitAreReadOnlyByTheirReaders :
    (∀ x, Instr.drw 1#4 1#4 1#4 ≠ .ldStVx x) ∧
    (∀ x, Instr.drw 1#4 1#4 1#4 ≠ .ldVxDt x ∧ Instr.drw 1#4 1#4 1#4 ≠ .ldDtVx x) ∧
    (∀ x, Instr.drw 1#4 1#4 1#4 ≠ .skp x ∧ Instr.drw 1#4 1#4 1#4 ≠ .sknp x) ∧
    (∀ x, Instr.drw 1#4 1#4 1#4 ≠ .ldVxK x) :=
  ⟨nofun, fun _ => ⟨nofun, nofun⟩, fun _ => ⟨nofun, nofun⟩, nofun⟩

theorem witness_ScreenIsReadOnlyByDraw :
    (∀ x y n, Instr.cls 0#4 ≠ .drw x y n) ∧ (∀ x y n, Instr.ldF 1#4 ≠ .drw x y n) ∧ ∀ u, Instr.ldF 1#4 ≠ .cls u :=
  ⟨nofun, nofun, nofun⟩

theorem witness_MemoryStackAndDrawsAreTouchedOnlyByTheirUsers :
    (∀ x y n, Instr.skp 1#4 ≠ .drw x y n) ∧ (∀ x, Instr.skp 1#4 ≠ .ldB x ∧ Instr.skp 1#4 ≠ .storeRegs x ∧ Instr.skp 1#4 ≠ .loadRegs x) ∧
    (∀ u, Instr.skp 1#4 ≠ .ret u) ∧ (∀ nnn, Instr.skp 1#4 ≠ .call nnn) ∧ ∀ x kk, Instr.skp 1#4 ≠ .rnd x kk :=
  ⟨nofun, fun _ => ⟨nofun, nofun, nofun⟩, nofun, nofun, nofun⟩

/-- A destination other than `VF`. -/
theorem witness_AddRegistersSetsSumAndCarry : (14#4 : Nibble) ≠ flagReg := by decide
theorem witness_SubtractSetsDifferenceAndNoBorrow : (0#4 : Nibble) ≠ flagReg := by decide
theorem witness_ShiftsMoveOneBitIntoFlag : (14#4 : Nibble) ≠ flagReg := by decide

/-- One entry below the bound, and at the bound. -/
theorem witness_CallPushesAndJumps :
    (∃ s : State, s.stack.length ≠ s.config.stackDepth ∧ s.stack.length = 15) ∧
    (∃ s : State, s.stack.length = s.config.stackDepth) :=
  ⟨⟨{ State.reset with stack := List.replicate 15 0#16 }, by decide⟩, ⟨{ State.reset with stack := List.replicate 16 0#16 }, by decide⟩⟩

/-- A stack of one entry, and the empty one. -/
theorem witness_ReturnPopsIntoProgramCounter :
    (∃ (s : State) (rest : List Word) (a : Word), s.stack = rest ++ [a]) ∧ State.reset.stack = [] :=
  ⟨⟨{ State.reset with stack := [0x206#16] }, [], 0x206#16, rfl⟩, rfl⟩

theorem witness_CallThenReturnRestores :
    State.reset.stack.length ≠ State.reset.config.stackDepth ∧
    ∃ callee : State, callee.stack = [0x200#16] ∧ exec (.call 0x300#12) State.reset = .next (setPc callee 0x300#16) :=
  ⟨by decide, { State.reset with stack := [0x200#16] }, rfl, rfl⟩

/-- At the last `I` that fits. -/
theorem witness_BcdWritesThreeDigits :
    memoryWf (setI sample 0xFFD#16) ∧ (setI sample 0xFFD#16).i.toNat + 2 = 0xFFF := ⟨rfl, by decide⟩

/-- At the last `I` that fits. -/
theorem witness_BlockLoadReadsRegisters : (setI sample 0xFF0#16).i.toNat + (15#4 : Nibble).toNat = 0xFFF := by decide

/-- At the last `I` that fits. -/
theorem witness_BlockStoreWritesRegisters :
    memoryWf (setI sample 0xFF0#16) ∧ (setI sample 0xFF0#16).i.toNat + (15#4 : Nibble).toNat = 0xFFF := ⟨rfl, by decide⟩

theorem witness_BlockStoreThenLoadRoundTrips :
    memoryWf (setI sample 0xFF0#16) ∧ (setI sample 0xFF0#16).i.toNat + (15#4 : Nibble).toNat ≤ 0xFFF ∧
    ∃ t w, exec (.storeRegs 15#4) (setI sample 0xFF0#16) = .next t ∧ w.i = (setI sample 0xFF0#16).i ∧
      ∀ a, readByte w a = readByte t a :=
  ⟨rfl, by decide, _, setI (writeBytes (setI sample 0xFF0#16) 0xFF0 (regsUpTo sample 15#4)) 0xFF0#16, rfl, rfl, fun _ => rfl⟩

/-- M16. -/
theorem witness_StoredWordIsExecutedNext :
    ∃ s t, memoryWf s ∧ exec (.storeRegs 1#4) s = .next t ∧ t.waiting = false ∧
      t.pc.toNat = dataAddress s + (0#4 : Nibble).toNat ∧ (0#4 : Nibble).toNat + 1 ≤ (1#4 : Nibble).toNat ∧
      decodeWord (readV s 0#4 ++ readV s (0#4 + 1#4)) = .ok (.jp 0x208#12) :=
  ⟨setPc (setI (regs [(0, 0x12), (1, 0x08)]) 0x202#16) 0x202#16, _, rfl, rfl, by decide, by decide, by decide, by decide⟩

/-- No row at any `I`, and the last `I` of a sprite of 15 rows. -/
theorem witness_DrawFlipsTargetedPixels :
    ((0#4 : Nibble).toNat = 0 ∨ (setI sample 0xFFFF#16).i.toNat + (0#4 : Nibble).toNat - 1 ≤ 0xFFF) ∧
    (setI sample 0xFF1#16).i.toNat + (15#4 : Nibble).toNat - 1 = 0xFFF := by decide

/-- The second draw in the state the first one leaves, and targets that are all 0. -/
theorem witness_DrawTwiceRestoresEveryPixel :
    (∀ px py, pixel (dataAt 0x300#16 [0x80#8] sample).fb px py = false) ∧
    (dataAt 0x300#16 [0x80#8] sample).i.toNat + (1#4 : Nibble).toNat - 1 ≤ 0xFFF ∧
    ∃ t, exec (.drw 2#4 3#4 1#4) (dataAt 0x300#16 [0x80#8] sample) = .next t ∧ t.i = 0x300#16 ∧
      (∀ a, readByte t a = readByte (dataAt 0x300#16 [0x80#8] sample) a) ∧
      readV t 2#4 = readV (dataAt 0x300#16 [0x80#8] sample) 2#4 ∧
      readV t 3#4 = readV (dataAt 0x300#16 [0x80#8] sample) 3#4 :=
  ⟨fun _ _ => by simp [dataAt, writeBytes, writeByte, setI, sample, regs, writeV, State.reset, State.new, pixel], by decide,
    _, rfl, by decide, fun _ => rfl, by decide, by decide⟩

/-- A named key at 15, one given by the low nibble, and the least value that is none. -/
theorem witness_KeySkipsTestTheNamedKey :
    (readV (regs [(1, 15)]) 1#4).toNat = (15 : Fin 16).val ∧
    (∃ s : State, s.config.keyIndexMode = .lowNibble ∧ (readV s 1#4).toNat % 16 = (0 : Fin 16).val ∧ readV s 1#4 = 16#8) ∧
    15 < (readV (regs [(1, 16)]) 1#4).toNat ∧ (regs [(1, 16)]).config.keyIndexMode = .fault :=
  ⟨by decide, ⟨{ regs [(1, 16)] with config := { defaultConfig with keyIndexMode := .lowNibble } }, by decide⟩, by decide⟩

theorem witness_TimerSetTickLeavesOneLess :
    (∃ s : State, s.waiting = false ∧ s.pc.toNat + 1 ≤ 0xFFF ∧ decodeWord (fetchWord s) = .ok (.ldDtVx 2#4)) ∧
    (∃ s : State, s.waiting = false ∧ s.pc.toNat + 1 ≤ 0xFFF ∧ decodeWord (fetchWord s) = .ok (.ldStVx 2#4)) :=
  ⟨⟨sample.withFetchWord 16 0xF215, by decide⟩, ⟨sample.withFetchWord 16 0xF218, by decide⟩⟩

/-- The last key index, with the engine waiting, and the first that is none. -/
theorem witness_SetKeyCompletesTheWait :
    (15 ≤ 15 ∧ ∃ s : State, s.waiting = true ∧ s.waitX = 3#4) ∧ 15 < 16 :=
  ⟨⟨by decide, { State.reset with waiting := true, waitX := 3#4 }, rfl, rfl⟩, by decide⟩

theorem witness_ResetGivesTheTabledState :
    (∃ s c, s = State.new c) ∧ ∃ s s₀ : State, s = (transact .reset s₀).1 ∧ s₀.waiting = true :=
  ⟨⟨_, defaultConfig, rfl⟩, _, { State.reset with waiting := true }, rfl, rfl⟩

/-- The longest image, and one byte more. -/
theorem witness_LoadCopiesTheImage :
    memoryWf State.reset ∧ (List.replicate 0xE00 1#8).length ≤ 0xE00 ∧ 0xE00 < (List.replicate 0xE01 1#8).length := by
  refine ⟨rfl, ?_, ?_⟩ <;> simp only [List.length_replicate] <;> decide

theorem witness_DiagnosticsGiveTimersRegistersAndMemory : 4095 < 4096 := by decide

/-- The guarded queries at the edges of their ranges. -/
theorem witness_QueriesReadTheStateTheyName :
    (64 ≤ 64 ∨ 32 ≤ 0) ∧ (64 ≤ 0 ∨ 32 ≤ 32) ∧ 15 < 16 := by decide

/-- The last key index and the first that is none, and a coordinate off each side of the grid. -/
theorem witness_RunsReportEachOutcomeAndQueriesChangeNothing :
    (15 : Fin 16).val = 15 ∧ 15 < 16 ∧ (64 ≤ 64 ∨ 32 ≤ 31) ∧ (64 ≤ 63 ∨ 32 ≤ 32) := by decide

end Sys2Proof.Tests
end

section
/-!
PROOFS of 00_scope.md. What a query transaction answers (spec/70_reset_and_hazards.md R242, R243) and what a run of
transactions does with one more of them, or with its queries left out (R6, R254).
-/

namespace Sys2Proof.Machine

/-- A coordinate on the grid answers its pixel, as the framebuffer holds it (R243). -/
theorem getPixel_of_onGrid (s : State) (x : Fin 64) (y : Fin 32) :
    getPixel s x.val y.val = some (pixel s.fb x y).toNat :=
  dif_pos ⟨x.isLt, y.isLt⟩

/-- A coordinate off the grid gives no value (R243). -/
theorem getPixel_of_offGrid (s : State) {x y : Nat} (h : 64 ≤ x ∨ 32 ≤ y) : getPixel s x y = none :=
  dif_neg (by omega)

theorem transact_keyState_of_le (s : State) (k : Fin 16) :
    transact (.query (.keyState k.val)) s = (s, .answer (.flag s.keys[k.val])) := by
  simp only [transact_query, answer, getKeyState_of_le]

theorem transact_keyState_of_gt (s : State) {k : Nat} (h : 15 < k) :
    transact (.query (.keyState k)) s = (s, .err (.keyIndexOutOfRange k)) := by
  simp only [transact_query, answer, getKeyState_of_gt s h]

theorem transact_pixel_of_onGrid (s : State) (x : Fin 64) (y : Fin 32) :
    transact (.query (.pixel x.val y.val)) s = (s, .answer (.number (pixel s.fb x y).toNat)) := by
  simp only [transact_query, answer, getPixel_of_onGrid]

theorem transact_pixel_of_offGrid (s : State) {x y : Nat} (h : 64 ≤ x ∨ 32 ≤ y) :
    transact (.query (.pixel x y)) s = (s, .noAnswer) := by
  simp only [transact_query, answer, getPixel_of_offGrid s h]

/-- Two runs, the second from where the first left off: the outcomes of the first stand before those of the second. -/
theorem runTransactions_append (ps qs : List Transaction) (s : State) :
    runTransactions (ps ++ qs) s =
      ((runTransactions qs (runTransactions ps s).1).1,
        (runTransactions ps s).2 ++ (runTransactions qs (runTransactions ps s).1).2) := by
  induction ps generalizing s with
  | nil => rfl
  | cons p ps ih => simp only [List.cons_append, runTransactions_cons, ih]

/-- One more transaction acts where the run stood, and its outcome is reported last (R254). -/
theorem runTransactions_concat (qs : List Transaction) (q : Transaction) (s : State) :
    runTransactions (qs ++ [q]) s =
      ((transact q (runTransactions qs s).1).1,
        (runTransactions qs s).2 ++ [(transact q (runTransactions qs s).1).2]) :=
  runTransactions_append qs [q] s

/-- The queries of a run can be left out without changing its final state, as each leaves the state as it was (R61). -/
theorem runTransactions_state_filter_not_isQuery (qs : List Transaction) (s : State) :
    (runTransactions (qs.filter fun q => !isQuery q) s).1 = (runTransactions qs s).1 := by
  induction qs generalizing s with
  | nil => rfl
  | cons q qs ih =>
    cases hq : isQuery q with
    | true => simp [runTransactions_cons, hq, ih, transact_state_of_isQuery hq]
    | false => simp [runTransactions_cons, hq, ih]

/-- Settles O60: the answer of each query, the law of one more transaction by the law of two runs, and the erasure of
queries by induction on the run. -/
theorem runsReportEachOutcomeAndQueriesChangeNothing :
    Obligations.RunsReportEachOutcomeAndQueriesChangeNothing := by
  intro s
  refine ⟨transact_keyState_of_le s, fun _ => transact_keyState_of_gt s, transact_pixel_of_onGrid s,
    fun _ _ => transact_pixel_of_offGrid s, ?framebuffer, ?delayTimer, ?soundTimer, ?registers, ?memory, ?waiting,
    ?index, ?pc, ?stack, fun qs q => runTransactions_concat qs q s,
    fun qs => runTransactions_state_filter_not_isQuery qs s⟩
  -- The other queries are never refused: each answers the value it names, by definition.
  all_goals exact transact_query _ s

end Sys2Proof.Machine
end

section
/-!
PROOFS of 10_state.md. What an instruction that completes may change (its footprint) and which registers, flag and
pieces of state follow from it (R22 to R40); what a tick and every other transaction keep, key states and the invariant
among them (R31, R32, R39); the state after reset (R44); and which pieces of state an
instruction reads (R24, R34 to R40).
-/

namespace Sys2Proof.Machine

/-! ### Reading memory outside a write -/

theorem Memory.read_put_of_ne (blank : Nat → Byte) {a a' : Nat} (b : Byte) (m : Memory) (h : a' ≠ a) :
    Memory.read blank (Memory.put blank a b m) a' = Memory.read blank m a' := by
  unfold Memory.put
  split
  · rfl
  · simp [Memory.read, h.symm]

/-- A write leaves the byte at every other address as it was, in canonical form or not (R56, R61). -/
theorem Memory.read_write_of_ne (blank : Nat → Byte) {a a' : Nat} (b : Byte) (m : Memory) (h : a' ≠ a) :
    Memory.read blank (Memory.write blank m a b) a' = Memory.read blank m a' := by
  induction m with
  | nil => exact Memory.read_put_of_ne blank b [] h
  | cons c m ih =>
    unfold Memory.write
    split_ifs with hlt heq
    · exact Memory.read_put_of_ne blank b (c :: m) h
    · have hc : ¬ c.1 = a' := fun e => h (e.symm.trans heq.symm)
      simp [Memory.read_put_of_ne blank b m h, Memory.read, hc]
    · simp [Memory.read, ih]

theorem readByte_writeByte_of_ne (s : State) {a a' : Nat} (b : Byte) (h : a' ≠ a) :
    readByte (writeByte s a b) a' = readByte s a' :=
  Memory.read_write_of_ne _ b s.mem h

theorem readByte_writeBytes_of_outside (s : State) (a : Nat) (bs : List Byte) {a' : Nat}
    (h : a' < a ∨ a + bs.length ≤ a') : readByte (writeBytes s a bs) a' = readByte s a' := by
  induction bs generalizing s a with
  | nil => rfl
  | cons b bs ih =>
    simp only [List.length_cons] at h
    rw [writeBytes, ih (writeByte s a b) (a + 1) (by omega), readByte_writeByte_of_ne s b (by omega)]

/-! ### Frames of the state's operations -/

/-- A block of writes changes those bytes alone, whatever form memory is in (R56). -/
theorem keeps_writeBytes_anyMemory (s : State) (a : Nat) (bs : List Byte) :
    Keeps { storeAt := a, storeLen := bs.length } s (writeBytes s a bs) where
  regs := fun r _ => readV_writeBytes s a bs r
  index := fun _ => writeBytes_i s a bs
  pc := fun _ => writeBytes_pc s a bs
  stack := fun _ => writeBytes_stack s a bs
  delay := fun _ => writeBytes_dt s a bs
  sound := fun _ => writeBytes_st s a bs
  screen := fun _ => writeBytes_fb s a bs
  keys := writeBytes_keys s a bs
  keyWait := fun _ => ⟨writeBytes_waiting s a bs, writeBytes_waitX s a bs⟩
  memory := fun _ e => readByte_writeBytes_of_outside s a bs e
  draws := fun _ => writeBytes_draws s a bs
  config := writeBytes_config s a bs

/-- A block load changes the registers it loads alone (R155). -/
theorem keeps_loadRegsBelow (s : State) (a : Nat) {n : Nat} (hn : n < 16) :
    Keeps { regs := fun r => r.toNat ≤ n } s (loadRegsBelow s a (n + 1)) where
  regs := fun r e => by rw [readV_loadRegsBelow s a (n + 1) hn r, if_neg (mt Nat.le_of_lt_succ e)]
  index := fun _ => loadRegsBelow_i s a (n + 1)
  pc := fun _ => loadRegsBelow_pc s a (n + 1)
  stack := fun _ => loadRegsBelow_stack s a (n + 1)
  delay := fun _ => loadRegsBelow_dt s a (n + 1)
  sound := fun _ => loadRegsBelow_st s a (n + 1)
  screen := fun _ => loadRegsBelow_fb s a (n + 1)
  keys := loadRegsBelow_keys s a (n + 1)
  keyWait := fun _ => ⟨loadRegsBelow_waiting s a (n + 1), loadRegsBelow_waitX s a (n + 1)⟩
  memory := fun a' _ => readByte_loadRegsBelow s a (n + 1) a'
  draws := fun _ => loadRegsBelow_draws s a (n + 1)
  config := loadRegsBelow_config s a (n + 1)

/-- A write of `I` after other changes adds `I` to what may differ. -/
theorem Keeps.setI {f : Footprint} {s t : State} (h : Keeps f s t) (w : Word) :
    Keeps { f with index := true } s (setI t w) :=
  { h with index := nofun }

theorem keeps_setFb (s : State) (fb : Framebuffer) : Keeps { screen := true } s { s with fb := fb } :=
  { Keeps.refl { screen := true } s with screen := nofun }

theorem keeps_setDt (s : State) (b : Byte) : Keeps { delay := true } s { s with dt := b } :=
  { Keeps.refl { delay := true } s with delay := nofun }

theorem keeps_setSt (s : State) (b : Byte) : Keeps { sound := true } s { s with st := b } :=
  { Keeps.refl { sound := true } s with sound := nofun }

theorem keeps_setWait (s : State) (b : Bool) (x : Nibble) :
    Keeps { keyWait := true } s { s with waiting := b, waitX := x } :=
  { Keeps.refl { keyWait := true } s with keyWait := nofun }

/-- A write of the call stack and `PC`, as a call and a return make it, changes these alone (R100, R102). -/
theorem keeps_setStackPc (s : State) (k : List Word) (w : Word) :
    Keeps { pc := true, stack := true } s (setPc { s with stack := k } w) :=
  { Keeps.refl { pc := true, stack := true } s with pc := nofun, stack := nofun }

/-- A register written after a draw of `Rand8()` (R133). -/
theorem keeps_writeV_takeDraw (s : State) (x : Nibble) (b : Byte) :
    Keeps { regs := fun r => r = x, draws := true } s (writeV (takeDraw s).2 x b) :=
  { keeps_writeV s x b with draws := nofun }

/-- `VF` written before and after a change of the framebuffer, as a draw does it (R171). -/
theorem keeps_writeFlag_setFb (s : State) (b c : Byte) (fb : Framebuffer) :
    Keeps { regs := fun r => r = flagReg, screen := true } s (writeFlag { writeFlag s b with fb := fb } c) where
  regs := fun r e => by
    rw [readV_writeFlag, if_neg e]
    exact (readV_writeFlag s r b).trans (if_neg e)
  __ := Keeps.refl { screen := true } s
  screen := nofun

/-! ### What an instruction that may raise an error did when it completed -/

theorem execRet_next {u : Nibble} {s t : State} (h : execRet u s = .next t) :
    ∃ a, s.stack.getLast? = some a ∧ t = setPc { s with stack := s.stack.dropLast } a := by
  unfold execRet at h
  cases hp : popStack s with
  | none => simp [hp, raise] at h
  | some p =>
    obtain ⟨a, t'⟩ := p
    obtain ⟨ha, rfl⟩ := popStack_some.1 hp
    exact ⟨a, ha, by simpa [hp] using h.symm⟩

theorem execCall_next {nnn : Addr12} {s t : State} (h : execCall nnn s = .next t) :
    s.stack.length ≠ s.config.stackDepth ∧ t = setPc (pushStack s s.pc) (zextAddr nnn) := by
  unfold execCall raise at h
  split at h
  · cases h
  · next hlen => exact ⟨hlen, by simpa using h.symm⟩

theorem execSkp_next {x : Nibble} {s t : State} (h : execSkp x s = .next t) :
    ∃ pressed, keyOperand s x = .ok pressed ∧ t = skipIf pressed s := by
  unfold execSkp raise at h
  split at h
  · next pressed hp => exact ⟨pressed, hp, by simpa using h.symm⟩
  · cases h

theorem execSknp_next {x : Nibble} {s t : State} (h : execSknp x s = .next t) :
    ∃ pressed, keyOperand s x = .ok pressed ∧ t = skipIf (!pressed) s := by
  unfold execSknp raise at h
  split at h
  · next pressed hp => exact ⟨pressed, hp, by simpa using h.symm⟩
  · cases h

theorem execDrw_next {x y n : Nibble} {s t : State} (h : execDrw x y n s = .next t) :
    outOfRange (dataAddress s) n.toNat = false ∧
      ∃ fb collision, t = writeFlag { writeFlag s 0#8 with fb := fb } (collisionFlag collision) := by
  obtain ⟨hr, h⟩ := checkRange_next.1 h
  exact ⟨hr, _, _, by simpa using h.symm⟩

theorem execLdB_next {x : Nibble} {s t : State} (h : execLdB x s = .next t) :
    outOfRange (dataAddress s) 3 = false ∧ t = writeBytes s (dataAddress s) (bcdDigits (readV s x)) := by
  obtain ⟨hr, h⟩ := checkRange_next.1 h
  exact ⟨hr, by simpa using h.symm⟩

theorem execStoreRegs_next {x : Nibble} {s t : State} (h : execStoreRegs x s = .next t) :
    outOfRange (dataAddress s) (x.toNat + 1) = false ∧
      t = advanceI (writeBytes s (dataAddress s) (regsUpTo s x)) x := by
  obtain ⟨hr, h⟩ := checkRange_next.1 h
  exact ⟨hr, by simpa using h.symm⟩

theorem execLoadRegs_next {x : Nibble} {s t : State} (h : execLoadRegs x s = .next t) :
    outOfRange (dataAddress s) (x.toNat + 1) = false ∧
      t = advanceI (loadRegsBelow s (dataAddress s) (x.toNat + 1)) x := by
  obtain ⟨hr, h⟩ := checkRange_next.1 h
  exact ⟨hr, by simpa using h.symm⟩

/-! ### The footprint of an instruction -/

/-- What an instruction may change when it completes in `s` (R22 to R40, R56). -/
def footprint (s : State) : Instr → Footprint
  | .cls _ => { screen := true }
  | .jp _ | .jpV0 _ | .seImm _ _ | .sneImm _ _ | .seReg _ _ _ | .sneReg _ _ _ | .skp _ | .sknp _ => { pc := true }
  | .call _ | .ret _ => { pc := true, stack := true }
  | .ldImm x _ | .addImm x _ | .ldReg x _ | .orReg x _ | .andReg x _ | .xorReg x _ | .ldVxDt x =>
    { regs := fun r => r = x }
  | .addReg x _ | .sub x _ | .shr x _ | .subn x _ | .shl x _ => { regs := fun r => r = x ∨ r = flagReg }
  | .rnd x _ => { regs := fun r => r = x, draws := true }
  | .drw _ _ _ => { regs := fun r => r = flagReg, screen := true }
  | .ldVxK _ => { keyWait := true }
  | .ldDtVx _ => { delay := true }
  | .ldStVx _ => { sound := true }
  | .ldI _ | .addI _ | .ldF _ => { index := true }
  | .ldB _ => { storeAt := dataAddress s, storeLen := 3 }
  | .storeRegs x => { index := true, storeAt := dataAddress s, storeLen := x.toNat + 1 }
  | .loadRegs x => { regs := fun r => r.toNat ≤ x.toNat, index := true }

/-- An instruction that completes changes nothing outside its footprint. -/
theorem exec_keeps {i : Instr} {s t : State} (h : exec i s = .next t) : Keeps (footprint s i) s t := by
  cases i
  case cls => cases h; exact keeps_setFb s _
  case jp | jpV0 => cases h; exact keeps_setPc s _
  case seImm | sneImm | seReg | sneReg => cases h; exact keeps_skipIf _ s
  case skp => obtain ⟨pressed, _, rfl⟩ := execSkp_next h; exact keeps_skipIf pressed s
  case sknp => obtain ⟨pressed, _, rfl⟩ := execSknp_next h; exact keeps_skipIf (!pressed) s
  case call => obtain ⟨_, rfl⟩ := execCall_next h; exact keeps_setStackPc s _ _
  case ret u => obtain ⟨a, _, rfl⟩ := execRet_next (u := u) h; exact keeps_setStackPc s _ a
  case ldImm x _ | addImm x _ | ldReg x _ | orReg x _ | andReg x _ | xorReg x _ | ldVxDt x =>
    cases h; exact keeps_writeV s x _
  case addReg x _ | sub x _ | shr x _ | subn x _ | shl x _ => cases h; exact keeps_writeVThenFlag s x _ _
  case rnd x _ => cases h; exact keeps_writeV_takeDraw s x _
  case drw => obtain ⟨_, fb, c, rfl⟩ := execDrw_next h; exact keeps_writeFlag_setFb s _ _ fb
  case ldVxK x => cases h; exact keeps_setWait s true x
  case ldDtVx => cases h; exact keeps_setDt s _
  case ldStVx => cases h; exact keeps_setSt s _
  case ldI | addI | ldF => cases h; exact keeps_setI s _
  case ldB x =>
    obtain ⟨_, rfl⟩ := execLdB_next h
    exact keeps_writeBytes_anyMemory s (dataAddress s) (bcdDigits (readV s x))
  case storeRegs x =>
    obtain ⟨_, rfl⟩ := execStoreRegs_next h
    have hk := keeps_writeBytes_anyMemory s (dataAddress s) (regsUpTo s x)
    rw [regsUpTo_length] at hk
    exact hk.setI _
  case loadRegs x =>
    obtain ⟨_, rfl⟩ := execLoadRegs_next h
    exact (keeps_loadRegsBelow s (dataAddress s) x.isLt).setI _

/-- The registers of a footprint are the destinations of the instruction, and `VF` where it writes the flag (R22). -/
theorem footprint_regs (s : State) (i : Instr) (r : Nibble) :
    (footprint s i).regs r ↔ destinations i r ∨ (r = flagReg ∧ writesFlag i = true) := by
  cases i <;> simp [footprint, destinations, writesFlag]

/-- Settles O24: a register outside the footprint is kept. -/
theorem registersChangeOnlyAsDestinationOrFlag : Obligations.RegistersChangeOnlyAsDestinationOrFlag := by
  intro i s t r h hne
  rw [← footprint_regs s]
  by_contra hr
  exact hne ((exec_keeps h).regs r hr)

/-! ### The writers of each piece of state -/

theorem footprint_index {s : State} {i : Instr} (h : (footprint s i).index ≠ false) :
    (∃ nnn, i = .ldI nnn) ∨ ∃ x, i = .addI x ∨ i = .ldF x ∨ i = .storeRegs x ∨ i = .loadRegs x := by
  cases i <;> simp [footprint] at h ⊢

theorem footprint_pc {s : State} {i : Instr} (h : (footprint s i).pc ≠ false) :
    (∃ nnn, i = .jp nnn ∨ i = .call nnn ∨ i = .jpV0 nnn) ∨ (∃ u, i = .ret u) ∨
      (∃ x kk, i = .seImm x kk ∨ i = .sneImm x kk) ∨ (∃ x y u, i = .seReg x y u ∨ i = .sneReg x y u) ∨
      ∃ x, i = .skp x ∨ i = .sknp x := by
  cases i <;> simp [footprint] at h ⊢

theorem footprint_stack {s : State} {i : Instr} (h : (footprint s i).stack ≠ false) :
    (∃ nnn, i = .call nnn) ∨ ∃ u, i = .ret u := by
  cases i <;> simp [footprint] at h ⊢

theorem footprint_delay {s : State} {i : Instr} (h : (footprint s i).delay ≠ false) : ∃ x, i = .ldDtVx x := by
  cases i <;> simp [footprint] at h ⊢

theorem footprint_sound {s : State} {i : Instr} (h : (footprint s i).sound ≠ false) : ∃ x, i = .ldStVx x := by
  cases i <;> simp [footprint] at h ⊢

theorem footprint_screen {s : State} {i : Instr} (h : (footprint s i).screen ≠ false) :
    (∃ u, i = .cls u) ∨ ∃ x y n, i = .drw x y n := by
  cases i <;> simp [footprint] at h ⊢

theorem footprint_keyWait {s : State} {i : Instr} (h : (footprint s i).keyWait ≠ false) : ∃ x, i = .ldVxK x := by
  cases i <;> simp [footprint] at h ⊢

theorem footprint_draws {s : State} {i : Instr} (h : (footprint s i).draws ≠ false) : ∃ x kk, i = .rnd x kk := by
  cases i <;> simp [footprint] at h ⊢

/-- Settles O23: a piece of state that changed stands in the footprint of the instruction, and so names a writer. -/
theorem eachPieceOfStateHasItsWriters : Obligations.EachPieceOfStateHasItsWriters := by
  intro i s t h
  have hk := exec_keeps h
  exact ⟨fun hne => footprint_index (mt hk.index hne), fun hne => footprint_pc (mt hk.pc hne),
    fun hne => footprint_stack (mt hk.stack hne), fun hne => footprint_delay (mt hk.delay hne),
    fun hne => footprint_sound (mt hk.sound hne), fun hne => footprint_screen (mt hk.screen hne),
    fun hne => footprint_keyWait (mt hk.keyWait (not_and_or.2 hne)),
    fun hne => footprint_draws (mt hk.draws hne), hk.config⟩

/-! ### The flag -/

theorem flagByte_zero_or_one (b : Bool) : flagByte b = 0#8 ∨ flagByte b = 1#8 := by
  cases b
  · exact .inl rfl
  · exact .inr rfl

/-- An instruction that writes the flag leaves a condition's byte in `VF`, as it writes `VF` last (R22, R121). -/
theorem exec_flag {i : Instr} {s t : State} (hw : writesFlag i = true) (h : exec i s = .next t) :
    ∃ b, readV t flagReg = flagByte b := by
  cases i
  case addReg | sub | shr | subn | shl => cases h; exact ⟨_, (readV_writeVThenFlag ..).trans (if_pos rfl)⟩
  case drw => obtain ⟨_, _, c, rfl⟩ := execDrw_next h; exact ⟨c, readV_writeV_self ..⟩
  all_goals cases hw

/-- An instruction that writes the flag completes wherever `I` is 0: the sprite of a draw then lies in memory. -/
theorem exec_completes_of_writesFlag {i : Instr} {s : State} (hw : writesFlag i = true) (hi : s.i = 0#16) :
    ∃ t, exec i s = .next t := by
  cases i
  case addReg | sub | shr | subn | shl => exact ⟨_, rfl⟩
  case drw x y n =>
    have hr : outOfRange (dataAddress s) n.toNat = false := by
      have hn : n.toNat < 16 := n.isLt
      rw [← Bool.not_eq_true, outOfRange_iff, dataAddress, hi, BitVec.toNat_ofNat]
      omega
    exact ⟨_, checkRange_next.2 ⟨hr, rfl⟩⟩
  all_goals cases hw

theorem exec_flag_zero_or_one {i : Instr} {s t : State} (hw : writesFlag i = true) (h : exec i s = .next t) :
    readV t flagReg = 0#8 ∨ readV t flagReg = 1#8 := by
  obtain ⟨b, hb⟩ := exec_flag hw h
  rw [hb]
  exact flagByte_zero_or_one b

/-- Settles O22: a register outside the footprint is kept; and each of the six leaves 0 or 1 in `VF`, so it changes
`VF` in a state that holds 2 there. -/
theorem flagSideEffectsAreExactlyTheListed : Obligations.FlagSideEffectsAreExactlyTheListed := by
  refine ⟨fun i hd => ⟨?_, fun hw => ?_⟩, fun i s t hw h => exec_flag_zero_or_one hw h⟩
  · rintro ⟨s, t, h, hne⟩
    exact ((registersChangeOnlyAsDestinationOrFlag i s t flagReg h hne).resolve_left hd).2
  · obtain ⟨t, h⟩ := exec_completes_of_writesFlag (s := writeFlag State.reset 2#8) hw rfl
    refine ⟨_, t, h, ?_⟩
    rw [show readV (writeFlag State.reset 2#8) flagReg = 2#8 from readV_writeV_self ..]
    rcases exec_flag_zero_or_one hw h with h0 | h1
    · rw [h0]; decide
    · rw [h1]; decide

/-! ### What every transaction keeps -/

/-- A property of states that survives what a tick is made of: the advance of `PC`, an instruction that completes and
the countdown of the timers (R80). -/
structure KeptByTick (P : State → Prop) : Prop where
  advance : ∀ s, P s → P (advancePc s)
  exec : ∀ {i : Instr} {s t : State}, P s → Machine.exec i s = .next t → P t
  countDown : ∀ s, P s → P (decrementTimers s)

theorem KeptByTick.step {P : State → Prop} (hP : KeptByTick P) {s t : State} (hs : P s) (h : step s = .next t) :
    P t := by
  rcases tickOutcome_next.1 h with ⟨_, rfl⟩ | ⟨_, _, i, u, _, he, rfl⟩
  · exact hP.countDown s hs
  · exact hP.countDown u (hP.exec (hP.advance s hs) he)

/-- What the host finds after a call: the outcome's next state, or the state the error leaves (R206). -/
theorem settle_preserves {P : State → Prop} {onError : State} {r : Result} (he : P onError)
    (hr : ∀ t, r = .next t → P t) : P (settle onError r).1 := by
  cases r with
  | next t => exact hr t rfl
  | fault _ => exact he
  | refused _ => exact he

theorem KeptByTick.tick {P : State → Prop} (hP : KeptByTick P) {s : State} (hs : P s) : P (tick s).1 := by
  refine settle_preserves ?_ fun t h => hP.step hs h
  unfold stateAfterError
  split
  · exact hs
  · exact hP.advance s hs

theorem KeptByTick.handleOpcode {P : State → Prop} (hP : KeptByTick P) {s : State} (hs : P s) (w : Word) :
    P (handleOpcode w s).1 := by
  refine settle_preserves hs fun t h => ?_
  obtain ⟨i, _, he⟩ := executeWord_next.1 h
  exact hP.exec hs he

/-! ### Key states -/

theorem keptByTick_keys (ks : Vector Bool 16) : KeptByTick fun s => s.keys = ks where
  advance := fun _ hs => hs
  exec := fun hs h => (exec_keeps h).keys.trans hs
  countDown := fun _ hs => hs

theorem load_keys (bytes : List Byte) (s : State) : (load bytes s).1.keys = s.keys := by
  unfold load
  split
  · exact writeBytes_keys s _ bytes
  · rfl

/-- `set_key` leaves the key states with the named one written, whether or not it ends a key-wait (R241). -/
theorem setKey_keys (s : State) (k : Fin 16) (p : Bool) : (setKey k.val p s).1.keys = s.keys.set k.val p := by
  have hle : k.val ≤ 15 := Nat.le_of_lt_succ k.isLt
  have hk : (BitVec.ofNat 4 k.val).toNat = k.val := by simp
  unfold setKey
  rw [if_pos hle]
  simp only [writeKey, hk]
  split
  · rfl
  · rfl

/-- Settles O21: the frame of an instruction, what a tick keeps, and the transactions one by one. -/
theorem keysChangeOnlyByHost : Obligations.KeysChangeOnlyByHost := by
  refine ⟨fun i s t h => (exec_keeps h).keys, fun q s hne => ?_, fun s k p j => ?_⟩
  · cases q with
    | tick => exact absurd ((keptByTick_keys s.keys).tick rfl) hne
    | handleOpcode w => exact absurd ((keptByTick_keys s.keys).handleOpcode rfl w) hne
    | reset => exact .inl rfl
    | load bytes => exact absurd (load_keys bytes s) hne
    | setKey k p => exact .inr ⟨k, p, rfl⟩
    | query q => exact absurd rfl hne
  · simp [setKey_keys, Vector.getElem_set, Fin.ext_iff, eq_comm]

/-! ### The invariant -/

theorem Inv.congr {s t : State} (h : Inv s) (hm : t.mem = s.mem) (hk : t.stack = s.stack)
    (hc : t.config = s.config) : Inv t where
  memory := memoryWf_congr hm hc h.memory
  stack := by rw [hk, hc]; exact h.stack

/-- Every new engine has nothing listed in memory and an empty stack (R44). -/
theorem inv_new (c : Config) : Inv (State.new c) := ⟨memoryWf_new c, Nat.zero_le _⟩

theorem Inv.writeBytes {s : State} (h : Inv s) (a : Nat) (bs : List Byte) (ha : a + bs.length ≤ memSize) :
    Inv (writeBytes s a bs) where
  memory := memoryWf_writeBytes h.memory a bs ha
  stack := by simpa using h.stack

/-- An instruction that completes keeps the invariant: `Fx33` and `Fx55` write a range that passed its check, a call
finds the stack not full, a return shortens it, and every other instruction leaves both alone (R31, R55). -/
theorem Inv.exec {i : Instr} {s t : State} (hs : Inv s) (h : exec i s = .next t) : Inv t := by
  cases i with
  | ldB x =>
    obtain ⟨hr, rfl⟩ := execLdB_next h
    exact hs.writeBytes _ _ (inRange_of_not_outOfRange hr (Nat.succ_pos 2))
  | storeRegs x =>
    obtain ⟨hr, rfl⟩ := execStoreRegs_next h
    have ha := inRange_of_not_outOfRange hr (Nat.succ_pos _)
    rw [← regsUpTo_length s x] at ha
    exact (hs.writeBytes _ _ ha).congr rfl rfl rfl
  | call nnn =>
    obtain ⟨hne, rfl⟩ := execCall_next h
    have hlt := Nat.lt_of_le_of_ne hs.stack hne
    exact ⟨hs.memory, by simpa using hlt⟩
  | ret u =>
    obtain ⟨a, _, rfl⟩ := execRet_next (u := u) h
    exact ⟨hs.memory, (List.dropLast_sublist s.stack).length_le.trans hs.stack⟩
  | drw => obtain ⟨_, _, _, rfl⟩ := execDrw_next h; exact hs.congr rfl rfl rfl
  | skp => obtain ⟨_, _, rfl⟩ := execSkp_next h; exact hs.congr (by simp) (by simp) (by simp)
  | sknp => obtain ⟨_, _, rfl⟩ := execSknp_next h; exact hs.congr (by simp) (by simp) (by simp)
  | loadRegs => obtain ⟨_, rfl⟩ := execLoadRegs_next h; exact hs.congr (by simp) (by simp) (by simp)
  | _ => cases h; exact hs.congr (by simp) (by simp) (by simp)

theorem keptByTick_inv : KeptByTick Inv where
  advance := fun _ hs => hs.congr rfl rfl rfl
  exec := fun hs h => hs.exec h
  countDown := fun _ hs => hs.congr rfl rfl rfl

/-- Settles O17: a tick is made of operations that each keep the invariant. -/
theorem stepKeepsInvariant : Obligations.StepKeepsInvariant :=
  fun _ _ hs h => keptByTick_inv.step hs h

theorem Inv.load {s : State} (hs : Inv s) (bytes : List Byte) : Inv (load bytes s).1 := by
  unfold Machine.load
  split
  · next hfits =>
    have hlen : bytes.length ≤ 0xE00 := of_decide_eq_true hfits
    exact hs.writeBytes _ _ (Nat.add_le_add_left hlen 0x200)
  · exact hs

theorem Inv.setKey {s : State} (hs : Inv s) (k : Nat) (p : Bool) : Inv (setKey k p s).1 := by
  unfold Machine.setKey
  split
  · simp only
    split
    · exact hs.congr rfl rfl rfl
    · exact hs.congr rfl rfl rfl
  · exact hs

theorem Inv.transact {s : State} (hs : Inv s) (q : Transaction) : Inv (transact q s).1 := by
  cases q with
  | tick => exact keptByTick_inv.tick hs
  | handleOpcode w => exact keptByTick_inv.handleOpcode hs w
  | reset => exact (inv_new s.config).congr rfl rfl rfl
  | load bytes => exact hs.load bytes
  | setKey k p => exact hs.setKey k p
  | query q => exact hs

theorem Inv.runTransactions {s : State} (hs : Inv s) (qs : List Transaction) : Inv (runTransactions qs s).1 := by
  induction qs generalizing s with
  | nil => exact hs
  | cons q qs ih => exact ih (hs.transact q)

/-- Settles O18: by induction on the run, from any state that meets the invariant and so from every new engine. -/
theorem transactionsKeepInvariant : Obligations.TransactionsKeepInvariant :=
  ⟨fun qs _ hs => hs.runTransactions qs, fun qs c => (inv_new c).runTransactions qs⟩

/-- A new engine starts at 0x200 with no return address (R44). -/
theorem pcInRange_new (c : Config) : PcInRange (State.new c) := ⟨(by decide : (0x200#16).toNat ≤ 0x10FE), nofun⟩

/-- Settles O19: reset is the new engine of the default parameters. -/
theorem resetMeetsInvariants : Obligations.ResetMeetsInvariants :=
  ⟨inv_new _, pcInRange_new _, fun c => ⟨inv_new c, pcInRange_new c⟩⟩

/-! ### The state after reset -/

theorem resetByte_font (font : Vector Byte 80) (k : Nat) (h : k < 80) : resetByte font (0x50 + k) = font[k] := by
  have hin : fontBase ≤ 0x50 + k ∧ 0x50 + k < fontBase + fontSize := by simp only [fontBase, fontSize]; omega
  have hk : 0x50 + k - fontBase = k := Nat.add_sub_cancel_left 0x50 k
  simp only [resetByte, dif_pos hin, hk]

theorem resetByte_outside (font : Vector Byte 80) {a : Nat} (h : a < 0x50 ∨ 0x9F < a) : resetByte font a = 0#8 :=
  dif_neg (by simp only [fontBase, fontSize]; omega)

theorem readV_new (c : Config) (r : Nibble) : readV (State.new c) r = 0#8 := by
  simp [readV, State.new]

theorem keys_new (c : Config) (k : Fin 16) : (State.new c).keys[k.val] = false := by
  simp [State.new]

/-- A state at reset is a new engine's, up to the count of draws, which reset leaves alone (D28). -/
theorem eq_new_of_reset {s : State} (h : (∃ c, s = State.new c) ∨ ∃ s₀, s = (transact .reset s₀).1) :
    ∃ c d, s = { State.new c with draws := d } := by
  rcases h with ⟨c, rfl⟩ | ⟨s₀, rfl⟩
  · exact ⟨c, 0, rfl⟩
  · exact ⟨s₀.config, s₀.draws, rfl⟩

/-- Settles O56: a state at reset is a new engine's but for its draws, and a new engine holds the values of R44. -/
theorem resetGivesTheTabledState : Obligations.ResetGivesTheTabledState := by
  refine ⟨fun s hs => ?_, fun _ => ⟨rfl, rfl, rfl⟩, rfl⟩
  obtain ⟨c, d, rfl⟩ := eq_new_of_reset hs
  exact ⟨readV_new c, rfl, rfl, rfl, rfl, rfl, resetByte_font c.font, fun _ => resetByte_outside c.font,
    pixel_clearFramebuffer, keys_new c, rfl, rfl⟩

/-! ### Who reads each piece of state -/

/-- One piece of the state with another value in it. -/
inductive Overwrite where
  | index (w : Word)
  | stack (k : List Word)
  | delay (b : Byte)
  | sound (b : Byte)
  | screen (fb : Framebuffer)
  | keys (ks : Vector Bool 16)
  | keyWait (waiting : Bool) (waitX : Nibble)
  | memory (m : Memory)
  | draws (n : Nat)

/-- The state with the piece overwritten. -/
def Overwrite.apply : Overwrite → State → State
  | .index w, s => setI s w
  | .stack k, s => { s with stack := k }
  | .delay b, s => { s with dt := b }
  | .sound b, s => { s with st := b }
  | .screen fb, s => { s with fb := fb }
  | .keys ks, s => { s with keys := ks }
  | .keyWait b x, s => { s with waiting := b, waitX := x }
  | .memory m, s => { s with mem := m }
  | .draws n, s => { s with draws := n }

/-- The instruction reads or replaces the overwritten piece (R24, R30, R34 to R40, R50). -/
def touches : Instr → Overwrite → Bool
  | .cls _, .screen _ => true
  | .ret _, .stack _ | .call _, .stack _ => true
  | .ldI _, .index _ | .addI _, .index _ | .ldF _, .index _ => true
  | .rnd _ _, .draws _ => true
  | .drw _ _ _, .index _ | .drw _ _ _, .memory _ | .drw _ _ _, .screen _ => true
  | .skp _, .keys _ | .sknp _, .keys _ => true
  | .ldVxDt _, .delay _ | .ldDtVx _, .delay _ => true
  | .ldStVx _, .sound _ => true
  | .ldVxK _, .keyWait _ _ => true
  | .ldB _, .index _ | .ldB _, .memory _ => true
  | .storeRegs _, .index _ | .storeRegs _, .memory _ => true
  | .loadRegs _, .index _ | .loadRegs _, .memory _ => true
  | _, _ => false

/-! ### The state's operations on an overwritten state -/

@[simp] theorem readV_overwrite (o : Overwrite) (s : State) (x : Nibble) : readV (o.apply s) x = readV s x := by
  cases o <;> rfl

@[simp] theorem writeV_overwrite (o : Overwrite) (s : State) (x : Nibble) (b : Byte) :
    writeV (o.apply s) x b = o.apply (writeV s x b) := by
  cases o <;> rfl

@[simp] theorem writeVThenFlag_overwrite (o : Overwrite) (s : State) (x : Nibble) (b flag : Byte) :
    writeVThenFlag (o.apply s) x b flag = o.apply (writeVThenFlag s x b flag) := by
  simp [writeVThenFlag, writeFlag]

@[simp] theorem setPc_overwrite (o : Overwrite) (s : State) (w : Word) : setPc (o.apply s) w = o.apply (setPc s w) := by
  cases o <;> rfl

@[simp] theorem skipIf_overwrite (o : Overwrite) (c : Bool) (s : State) : skipIf c (o.apply s) = o.apply (skipIf c s) := by
  cases c
  · rfl
  · cases o <;> rfl

@[simp] theorem overwrite_pc (o : Overwrite) (s : State) : (o.apply s).pc = s.pc := by
  cases o <;> rfl

@[simp] theorem overwrite_config (o : Overwrite) (s : State) : (o.apply s).config = s.config := by
  cases o <;> rfl

theorem overwrite_stack {o : Overwrite} (h : ∀ k, o ≠ .stack k) (s : State) : (o.apply s).stack = s.stack := by
  cases o with
  | stack k => exact absurd rfl (h k)
  | _ => rfl

theorem pushStack_overwrite {o : Overwrite} (h : ∀ k, o ≠ .stack k) (s : State) (a : Word) :
    pushStack (o.apply s) a = o.apply (pushStack s a) := by
  cases o with
  | stack k => exact absurd rfl (h k)
  | _ => rfl

theorem popStack_overwrite {o : Overwrite} (h : ∀ k, o ≠ .stack k) (s : State) :
    popStack (o.apply s) = (popStack s).map (Prod.map id o.apply) := by
  unfold popStack
  rw [overwrite_stack h]
  cases s.stack.getLast? with
  | none => rfl
  | some a =>
    cases o with
    | stack k => exact absurd rfl (h k)
    | _ => rfl

theorem overwrite_fb {o : Overwrite} (h : ∀ fb, o ≠ .screen fb) (s : State) : (o.apply s).fb = s.fb := by
  cases o with
  | screen fb => exact absurd rfl (h fb)
  | _ => rfl

theorem setFb_overwrite {o : Overwrite} (h : ∀ fb, o ≠ .screen fb) (s : State) (fb : Framebuffer) :
    { o.apply s with fb := fb } = o.apply { s with fb := fb } := by
  cases o with
  | screen fb' => exact absurd rfl (h fb')
  | _ => rfl

theorem keyOperand_overwrite {o : Overwrite} (h : ∀ ks, o ≠ .keys ks) (s : State) (x : Nibble) :
    keyOperand (o.apply s) x = keyOperand s x := by
  cases o with
  | keys ks => exact absurd rfl (h ks)
  | _ => rfl

theorem dataAddress_overwrite {o : Overwrite} (h : ∀ w, o ≠ .index w) (s : State) :
    dataAddress (o.apply s) = dataAddress s := by
  cases o with
  | index w => exact absurd rfl (h w)
  | _ => rfl

theorem advanceI_overwrite {o : Overwrite} (h : ∀ w, o ≠ .index w) (s : State) (x : Nibble) :
    advanceI (o.apply s) x = o.apply (advanceI s x) := by
  cases o with
  | index w => exact absurd rfl (h w)
  | _ => rfl

theorem readByte_overwrite {o : Overwrite} (h : ∀ m, o ≠ .memory m) (s : State) (a : Nat) :
    readByte (o.apply s) a = readByte s a := by
  cases o with
  | memory m => exact absurd rfl (h m)
  | _ => rfl

theorem writeByte_overwrite {o : Overwrite} (h : ∀ m, o ≠ .memory m) (s : State) (a : Nat) (b : Byte) :
    writeByte (o.apply s) a b = o.apply (writeByte s a b) := by
  cases o with
  | memory m => exact absurd rfl (h m)
  | _ => rfl

theorem readBytes_overwrite {o : Overwrite} (h : ∀ m, o ≠ .memory m) (s : State) (a n : Nat) :
    readBytes (o.apply s) a n = readBytes s a n := by
  induction n generalizing a with
  | zero => rfl
  | succ n ih => simp only [readBytes, readByte_overwrite h, ih]

theorem writeBytes_overwrite {o : Overwrite} (h : ∀ m, o ≠ .memory m) (s : State) (a : Nat) (bs : List Byte) :
    writeBytes (o.apply s) a bs = o.apply (writeBytes s a bs) := by
  induction bs generalizing s a with
  | nil => rfl
  | cons b bs ih => simp only [writeBytes, writeByte_overwrite h, ih]

theorem loadRegsBelow_overwrite {o : Overwrite} (h : ∀ m, o ≠ .memory m) (s : State) (a n : Nat) :
    loadRegsBelow (o.apply s) a n = o.apply (loadRegsBelow s a n) := by
  induction n with
  | zero => rfl
  | succ n ih => simp only [loadRegsBelow, ih, readByte_overwrite h, writeV_overwrite]

theorem regsUpTo_overwrite (o : Overwrite) (s : State) (x : Nibble) : regsUpTo (o.apply s) x = regsUpTo s x := by
  cases o <;> rfl

@[simp] theorem mapNext_next (f : State → State) (t : State) : mapNext f (.next t) = .next (f t) := rfl

theorem mapNext_checkRange (f : State → State) (a n : Nat) (r : Result) :
    mapNext f (checkRange a n r) = checkRange a n (mapNext f r) := by
  unfold checkRange
  split <;> rfl

/-! ### An instruction on an overwritten state -/

section

variable {o : Overwrite} (s : State)

theorem execRet_overwrite (h : ∀ k, o ≠ .stack k) (u : Nibble) :
    execRet u (o.apply s) = mapNext o.apply (execRet u s) := by
  unfold execRet
  rw [popStack_overwrite h]
  cases popStack s with
  | none => rfl
  | some p => exact congrArg Host.Outcome.next (setPc_overwrite o p.2 p.1)

theorem execCall_overwrite (h : ∀ k, o ≠ .stack k) (nnn : Addr12) :
    execCall nnn (o.apply s) = mapNext o.apply (execCall nnn s) := by
  simp only [execCall, overwrite_stack h, overwrite_config, overwrite_pc, pushStack_overwrite h, setPc_overwrite]
  split <;> rfl

theorem execSkp_overwrite (h : ∀ ks, o ≠ .keys ks) (x : Nibble) :
    execSkp x (o.apply s) = mapNext o.apply (execSkp x s) := by
  unfold execSkp
  rw [keyOperand_overwrite h]
  cases keyOperand s x with
  | ok pressed => exact congrArg Host.Outcome.next (skipIf_overwrite o pressed s)
  | error e => rfl

theorem execSknp_overwrite (h : ∀ ks, o ≠ .keys ks) (x : Nibble) :
    execSknp x (o.apply s) = mapNext o.apply (execSknp x s) := by
  unfold execSknp
  rw [keyOperand_overwrite h]
  cases keyOperand s x with
  | ok pressed => exact congrArg Host.Outcome.next (skipIf_overwrite o (!pressed) s)
  | error e => rfl

theorem execDrw_overwrite (hi : ∀ w, o ≠ .index w) (hm : ∀ m, o ≠ .memory m) (hf : ∀ fb, o ≠ .screen fb)
    (x y n : Nibble) : execDrw x y n (o.apply s) = mapNext o.apply (execDrw x y n s) := by
  simp only [execDrw, mapNext_checkRange, dataAddress_overwrite hi, readV_overwrite, writeFlag, writeV_overwrite,
    readBytes_overwrite hm, overwrite_fb hf, setFb_overwrite hf, mapNext_next]

theorem execLdB_overwrite (hi : ∀ w, o ≠ .index w) (hm : ∀ m, o ≠ .memory m) (x : Nibble) :
    execLdB x (o.apply s) = mapNext o.apply (execLdB x s) := by
  simp only [execLdB, mapNext_checkRange, dataAddress_overwrite hi, readV_overwrite, writeBytes_overwrite hm,
    mapNext_next]

theorem execStoreRegs_overwrite (hi : ∀ w, o ≠ .index w) (hm : ∀ m, o ≠ .memory m) (x : Nibble) :
    execStoreRegs x (o.apply s) = mapNext o.apply (execStoreRegs x s) := by
  simp only [execStoreRegs, mapNext_checkRange, dataAddress_overwrite hi, regsUpTo_overwrite, writeBytes_overwrite hm,
    advanceI_overwrite hi, mapNext_next]

theorem execLoadRegs_overwrite (hi : ∀ w, o ≠ .index w) (hm : ∀ m, o ≠ .memory m) (x : Nibble) :
    execLoadRegs x (o.apply s) = mapNext o.apply (execLoadRegs x s) := by
  simp only [execLoadRegs, mapNext_checkRange, dataAddress_overwrite hi, loadRegsBelow_overwrite hm,
    advanceI_overwrite hi, mapNext_next]

end

/-- An instruction that does not touch the overwritten piece does the same and carries the piece along. -/
theorem exec_overwrite {i : Instr} {o : Overwrite} (h : touches i o = false) (s : State) :
    exec i (o.apply s) = mapNext o.apply (exec i s) := by
  cases i
  case ldImm | addImm | ldReg | orReg | andReg | xorReg =>
    simp only [exec, execLdImm, execAddImm, execLdReg, execOrReg, execAndReg, execXorReg, readV_overwrite,
      writeV_overwrite, mapNext_next]
  case addReg | sub | shr | subn | shl =>
    simp only [exec, execAddReg, execSub, execShr, execSubn, execShl, readV_overwrite, writeVThenFlag_overwrite,
      mapNext_next]
  case jp | jpV0 => simp only [exec, execJp, execJpV0, readV_overwrite, setPc_overwrite, mapNext_next]
  case seImm | sneImm | seReg | sneReg =>
    simp only [exec, execSeImm, execSneImm, execSeReg, execSneReg, readV_overwrite, skipIf_overwrite, mapNext_next]
  case ret u => exact execRet_overwrite s (by rintro k rfl; cases h) u
  case call nnn => exact execCall_overwrite s (by rintro k rfl; cases h) nnn
  case skp x => exact execSkp_overwrite s (by rintro ks rfl; cases h) x
  case sknp x => exact execSknp_overwrite s (by rintro ks rfl; cases h) x
  case drw x y n =>
    exact execDrw_overwrite s (by rintro w rfl; cases h) (by rintro m rfl; cases h) (by rintro fb rfl; cases h) x y n
  case ldB x => exact execLdB_overwrite s (by rintro w rfl; cases h) (by rintro m rfl; cases h) x
  case storeRegs x => exact execStoreRegs_overwrite s (by rintro w rfl; cases h) (by rintro m rfl; cases h) x
  case loadRegs x => exact execLoadRegs_overwrite s (by rintro w rfl; cases h) (by rintro m rfl; cases h) x
  case cls | ldI | ldF | addI | rnd | ldVxDt | ldVxK | ldDtVx | ldStVx =>
    -- The piece it touches is excluded; every other one it neither reads nor writes.
    cases o <;> simp [touches] at h <;> rfl

/-- Settles O26: `Annn` and `Fx29` replace `I` unread, and the instructions of the last clause do not touch it. -/
theorem indexIsReadOnlyByItsReaders : Obligations.IndexIsReadOnlyByItsReaders := by
  refine fun s w => ⟨fun _ => rfl, fun _ => rfl, fun i hldI hldF hdrw hx => ?_⟩
  have ht : touches i (.index w) = false := by cases i <;> simp_all [touches]
  exact exec_overwrite ht s

/-- Settles O27: the instructions of a clause do not touch the piece it overwrites, or replace it unread. -/
theorem timersKeysAndWaitAreReadOnlyByTheirReaders : Obligations.TimersKeysAndWaitAreReadOnlyByTheirReaders := by
  intro i s
  refine ⟨fun v hx => exec_overwrite (o := .sound v) ?sound s, ?replaceSound,
    fun v hx => exec_overwrite (o := .delay v) ?delay s, ?replaceDelay,
    fun ks hx => exec_overwrite (o := .keys ks) ?keys s,
    fun b x' hx => exec_overwrite (o := .keyWait b x') ?keyWait s, ?replaceKeyWait⟩
  case replaceSound | replaceDelay => rintro v x rfl; rfl
  case replaceKeyWait => rintro b x' x rfl; rfl
  case sound | delay | keys | keyWait => cases i <;> simp_all [touches]

/-- Settles O28: an instruction other than `Dxyn` does not touch the screen, but for `00E0`, which replaces it
unread. -/
theorem screenIsReadOnlyByDraw : Obligations.ScreenIsReadOnlyByDraw := by
  refine fun i s fb hdrw => ⟨fun hcls => ?_, ?_⟩
  · have ht : touches i (.screen fb) = false := by cases i <;> simp_all [touches]
    exact exec_overwrite ht s
  · rintro u rfl
    rfl

end Sys2Proof.Machine
end

section
/-!
PROOFS of 20_memory.md. The big-endian layout of the fetched word and of a program image (R52); the only bytes an
instruction writes (R50, R56); who touches memory, the call stack and the count of draws (R30, R50); and that a word
stored under `PC` is the instruction the next tick runs (R61, R64).
-/

namespace Sys2Proof.Machine

/-! ### The fetched word -/

theorem wordOfBytes_toNat (hi lo : Byte) : (wordOfBytes hi lo).toNat = (hi.toNat <<< 8) ||| lo.toNat :=
  BitVec.toNat_append hi lo

/-- A word is its high byte and then its low byte (R52). -/
theorem wordOfBytes_extract (w : Word) : wordOfBytes (w.extractLsb' 8 8) (w.extractLsb' 0 8) = w := by
  ext k hk
  simp [wordOfBytes]
  grind

theorem fetchWord_eq {s : State} {a : Nat} (hpc : s.pc.toNat = a) :
    fetchWord s = wordOfBytes (readByte s a) (readByte s (a + 1)) := by
  rw [fetchWord, hpc]

/-! ### A program image -/

/-- Entry `k` of a list laid out two bytes per entry stands in the bytes `2 * k` and `2 * k + 1`. -/
theorem getElem?_flatMap_pair {α : Type} (hi lo : α → Byte) (ws : List α) {k : Nat} (hk : k < ws.length) :
    (ws.flatMap fun w => [hi w, lo w])[2 * k]? = some (hi ws[k]) ∧
      (ws.flatMap fun w => [hi w, lo w])[2 * k + 1]? = some (lo ws[k]) := by
  induction ws generalizing k with
  | nil => exact absurd hk (Nat.not_lt_zero k)
  | cons w ws ih =>
    cases k with
    | zero => exact ⟨rfl, rfl⟩
    | succ k => exact ih (Nat.lt_of_succ_lt_succ hk)

theorem length_flatMap_pair {α : Type} (hi lo : α → Byte) (ws : List α) :
    (ws.flatMap fun w => [hi w, lo w]).length = 2 * ws.length := by
  simp [Nat.mul_comm]

/-- A byte inside a block of writes reads as the block has it. -/
theorem readByte_writeBytes_of_getElem? {s : State} (h : memoryWf s) {a k : Nat} {bs : List Byte} {b : Byte}
    (ha : a + bs.length ≤ memSize) (hb : bs[k]? = some b) : readByte (writeBytes s a bs) (a + k) = b := by
  rw [readByte_writeBytes h a bs ha, if_pos (Nat.le_add_right a k), Nat.add_sub_cancel_left, hb, Option.getD_some]

theorem load_of_imageFits {bytes : List Byte} (h : imageFits bytes = true) (s : State) :
    load bytes s = (writeBytes s programBase bytes, .ok) :=
  if_pos h

/-- Settles O9: the bytes of a word append to it, and the image's bytes `2 * k` and `2 * k + 1` are those of word
`k`. -/
theorem fetchIsBigEndian : Obligations.FetchIsBigEndian := by
  refine ⟨fun s => wordOfBytes_toNat _ _, fun s ws hm hlen => ?_⟩
  have hbytes := length_flatMap_pair (·.extractLsb' 8 8) (·.extractLsb' 0 8) ws
  refine ⟨_, load_of_imageFits (decide_eq_true (hbytes.trans_le hlen)) s, fun k hk => ?_⟩
  obtain ⟨hhi, hlo⟩ := getElem?_flatMap_pair (·.extractLsb' 8 8) (·.extractLsb' 0 8) ws hk
  have hfit := Nat.add_le_add_left (hbytes.trans_le hlen) programBase
  have hpc : (BitVec.ofNat 16 (0x200 + 2 * k)).toNat = 0x200 + 2 * k := by
    rw [BitVec.toNat_ofNat]
    omega
  rw [fetchWord_eq hpc, ← wordOfBytes_extract ws[k]]
  exact congrArg₂ wordOfBytes (readByte_writeBytes_of_getElem? hm hfit hhi)
    (readByte_writeBytes_of_getElem? hm hfit hlo)

/-! ### The bytes an instruction writes -/

/-- Only `Fx33` and `Fx55` have bytes in their footprint, and these start at `I`. -/
theorem footprint_store {s : State} {i : Instr} {a : Nat}
    (h : (footprint s i).storeAt ≤ a ∧ a < (footprint s i).storeAt + (footprint s i).storeLen) :
    (∃ x, i = .ldB x ∧ dataAddress s ≤ a ∧ a < dataAddress s + 3) ∨
      ∃ x, i = .storeRegs x ∧ dataAddress s ≤ a ∧ a < dataAddress s + (x.toNat + 1) := by
  cases i
  case ldB x => exact .inl ⟨x, rfl, h⟩
  case storeRegs x => exact .inr ⟨x, rfl, h⟩
  all_goals exact absurd h.2 (Nat.not_lt_zero a)

/-- Settles O25: a byte outside the footprint is kept. -/
theorem onlyBcdAndBlockStoreWriteMemory : Obligations.OnlyBcdAndBlockStoreWriteMemory := by
  intro i s t _ h a hne
  have hin := mt ((exec_keeps h).memory a) hne
  exact footprint_store (by omega)

/-! ### Who touches memory, the stack and the draws -/

/-- Settles O29: an instruction that is none of the named users does not touch the overwritten piece. -/
theorem memoryStackAndDrawsAreTouchedOnlyByTheirUsers :
    Obligations.MemoryStackAndDrawsAreTouchedOnlyByTheirUsers := by
  intro i s
  refine ⟨fun m hdrw hx => exec_overwrite (o := .memory m) ?memory s,
    fun k hret hcall => exec_overwrite (o := .stack k) ?stack s,
    fun d hrnd => exec_overwrite (o := .draws d) ?draws s⟩
  case memory | stack | draws => cases i <;> simp_all [touches]

/-! ### A stored word is run -/

/-- After a block store that completed, the byte at `I + r` is `V[r]`, `I` as before the instruction (R154). -/
theorem readByte_of_storeRegs {s t : State} {x r : Nibble} (hm : memoryWf s) (h : exec (.storeRegs x) s = .next t)
    (hr : r.toNat ≤ x.toNat) : readByte t (dataAddress s + r.toNat) = readV s r := by
  obtain ⟨hrange, rfl⟩ := execStoreRegs_next h
  have hfit := inRange_of_not_outOfRange hrange (Nat.succ_pos _)
  rw [← regsUpTo_length s x] at hfit
  exact readByte_writeBytes_of_getElem? hm hfit (regsUpTo_getElem? s x r hr)

/-- A tick that is not waiting runs the instruction that the word at `PC` decodes to (R80). -/
theorem step_of_decodeWord {s : State} {i : Instr} (hw : s.waiting = false) (hr : outOfRange s.pc.toNat 2 = false)
    (hd : decodeWord (fetchWord s) = .ok i) : step s = finishTick (exec i (advancePc s)) := by
  simp [step, tickOutcome, checkRange, executeWord, hw, hr, hd]

/-- Settles O47: the two bytes under `PC` lie in the block that was stored, so the fetch finds the two registers
there. -/
theorem storedWordIsExecutedNext : Obligations.StoredWordIsExecutedNext := by
  intro s t x a i hm h hw hpc hax hd
  have hx : x.toNat < 16 := x.isLt
  have hsucc : (a + 1#4).toNat = a.toNat + 1 := by
    rw [BitVec.toNat_add, BitVec.toNat_ofNat]
    omega
  have hfetch : fetchWord (decrementTimers t) = readV s a ++ readV s (a + 1#4) := by
    have hhi := readByte_of_storeRegs hm h (r := a) (by omega)
    have hlo := readByte_of_storeRegs hm h (r := a + 1#4) (by omega)
    rw [hsucc, ← Nat.add_assoc] at hlo
    simp only [fetchWord_eq (s := decrementTimers t) hpc, readByte_decrementTimers, hhi, hlo, wordOfBytes]
  have hrange : outOfRange (decrementTimers t).pc.toNat 2 = false := by
    have hfit := (execStoreRegs_next h).1
    rw [← Bool.not_eq_true, outOfRange_iff] at hfit ⊢
    rw [decrementTimers_pc, hpc]
    omega
  exact step_of_decodeWord hw hrange (hfetch ▸ hd)

end Sys2Proof.Machine
end

section
/-!
PROOFS of 30_encoding.md. Decoder and encoder undo one another (R70, R72, R84) and agree with the mask / match map
(R83, R84); the fields of a word as numbers (R71) and the illegal words told by them (R76 to R79, R86); what a word, a
tick and `handle_opcode` execute (R80 to R82), and ticks of a waiting engine (R214, R220).
-/

namespace Sys2Proof.Machine

/-! ### Decoding an encoded instruction -/

/-- The last arm of the dispatch takes family 0xF (R75). -/
theorem decodeWord_of_op_F {w : Word} (h : (fields w).op = 0xF#4) : decodeWord w = decodeFamilyF w (fields w) := by
  simp [decodeWord, h]

/-- The decoder gives an instruction back from its word: the format of each row fixes the fields the dispatch is keyed
by, and keeps the operands in the others (R72, R84). -/
theorem decodeWord_encode (i : Instr) : decodeWord (encode i) = .ok i := by
  cases i
  case jp | call | ldI | jpV0 => simp only [encode, decodeWord, fields_encodeA]
  case seImm | sneImm | ldImm | addImm | rnd => simp only [encode, decodeWord, fields_encodeRI]
  case seReg | sneReg | drw => simp only [encode, decodeWord, fields_encodeRR]
  case cls | ret => simp only [encode, encodeO_eq, decodeWord, fields_encodeRI, decodeFamily0]
  case ldReg | orReg | andReg | xorReg | addReg | sub | shr | subn | shl =>
    simp only [encode, decodeWord, fields_encodeRR, decodeFamily8]
  case skp | sknp => simp only [encode, decodeWord, fields_encodeRI, decodeFamilyE]
  case ldVxDt | ldVxK | ldDtVx | ldStVx | addI | ldF | ldB | storeRegs | loadRegs =>
    simp only [encode, decodeWord_of_op_F, fields_encodeRI, decodeFamilyF]

theorem decodeBytes_cons_cons {hi lo : Byte} {i : Instr} (h : decodeWord (wordOfBytes hi lo) = .ok i)
    (rest : List Byte) : decodeBytes (hi :: lo :: rest) = .ok (i, rest) := by
  simp only [decodeBytes, h]

/-- Settles O1: the word of an instruction decodes to it, and its two bytes, high byte first, are that word. -/
theorem decodeOfEncodeGivesInstruction : Obligations.DecodeOfEncodeGivesInstruction := by
  refine fun i _ => ⟨decodeWord_encode i, decodeBytes_cons_cons ?_⟩
  rw [wordOfBytes_extract, decodeWord_encode]

/-! ### Encoding a decoded word -/

theorem encodeA_of_op {w : Word} {op : Nibble} (hop : (fields w).op = op) : encodeA op (fields w).nnn = w :=
  hop ▸ encodeA_fields w

theorem encodeRI_of_op {w : Word} {op : Nibble} (hop : (fields w).op = op) :
    encodeRI op (fields w).x (fields w).kk = w :=
  hop ▸ encodeRI_fields w

theorem encodeRI_of_op_kk {w : Word} {op : Nibble} {kk : Byte} (hop : (fields w).op = op) (hkk : (fields w).kk = kk) :
    encodeRI op (fields w).x kk = w :=
  hkk ▸ encodeRI_of_op hop

theorem encodeRR_of_op {w : Word} {op : Nibble} (hop : (fields w).op = op) :
    encodeRR op (fields w).x (fields w).y (fields w).n = w :=
  hop ▸ encodeRR_fields w

theorem encodeRR_of_op_n {w : Word} {op n : Nibble} (hop : (fields w).op = op) (hn : (fields w).n = n) :
    encodeRR op (fields w).x (fields w).y n = w :=
  hn ▸ encodeRR_of_op hop

/-- Settles O2: by family, the fields of the word are put back where the format has them. -/
theorem encodeOfDecodeGivesWord : Obligations.EncodeOfDecodeGivesWord := by
  intro w i h
  obtain ⟨hop, h⟩ | ⟨hop, rfl⟩ | ⟨hop, rfl⟩ | ⟨hop, rfl⟩ | ⟨hop, rfl⟩ | ⟨hop, rfl⟩ | ⟨hop, rfl⟩ | ⟨hop, rfl⟩ |
    ⟨hop, h⟩ | ⟨hop, rfl⟩ | ⟨hop, rfl⟩ | ⟨hop, rfl⟩ | ⟨hop, rfl⟩ | ⟨hop, rfl⟩ | ⟨hop, h⟩ | ⟨hop, h⟩ := decodeWord_ok h
  · obtain ⟨hkk, rfl⟩ | ⟨hkk, rfl⟩ := decodeFamily0_ok.mp h <;> exact encodeRI_of_op_kk hop hkk
  · exact encodeA_of_op hop
  · exact encodeA_of_op hop
  · exact encodeRI_of_op hop
  · exact encodeRI_of_op hop
  · exact encodeRR_of_op hop
  · exact encodeRI_of_op hop
  · exact encodeRI_of_op hop
  · obtain ⟨hn, rfl⟩ | ⟨hn, rfl⟩ | ⟨hn, rfl⟩ | ⟨hn, rfl⟩ | ⟨hn, rfl⟩ | ⟨hn, rfl⟩ | ⟨hn, rfl⟩ | ⟨hn, rfl⟩ | ⟨hn, rfl⟩ :=
      decodeFamily8_ok.mp h <;> exact encodeRR_of_op_n hop hn
  · exact encodeRR_of_op hop
  · exact encodeA_of_op hop
  · exact encodeA_of_op hop
  · exact encodeRI_of_op hop
  · exact encodeRR_of_op hop
  · obtain ⟨hkk, rfl⟩ | ⟨hkk, rfl⟩ := decodeFamilyE_ok.mp h <;> exact encodeRI_of_op_kk hop hkk
  · obtain ⟨hkk, rfl⟩ | ⟨hkk, rfl⟩ | ⟨hkk, rfl⟩ | ⟨hkk, rfl⟩ | ⟨hkk, rfl⟩ | ⟨hkk, rfl⟩ | ⟨hkk, rfl⟩ | ⟨hkk, rfl⟩ |
      ⟨hkk, rfl⟩ := decodeFamilyF_ok.mp h <;> exact encodeRI_of_op_kk hop hkk

/-! ### The mask / match map -/

/-- The row of an instruction takes its word in, whatever the operands (R84). -/
theorem admits_encode (i : Instr) : (opcodeRow i).admits (encode i) = true := by
  refine beq_iff_eq.mpr ?_
  cases i
  case jp | call | ldI | jpV0 => exact Laws.EncodingRow.admits_A _ _
  case seImm | sneImm | ldImm | addImm | rnd => exact (Laws.EncodingRow.admits_RI _ _ _).2
  case seReg | sneReg | drw => exact (Laws.EncodingRow.admits_RR _ _ _ _).2
  case ldReg | orReg | andReg | xorReg | addReg | sub | shr | subn | shl =>
    exact (Laws.EncodingRow.admits_RR _ _ _ _).1
  case cls | ret | skp | sknp | ldVxDt | ldVxK | ldDtVx | ldStVx | addI | ldF | ldB | storeRegs | loadRegs =>
    exact (Laws.EncodingRow.admits_RI _ _ _).1

/-- A row that fixes the family alone takes in the words of that family. -/
theorem op_of_familyMask {w : Word} {op : Nibble} (h : (w &&& 0xF000#16 == encodeA op 0#12) = true) :
    (fields w).op = op := by
  have h := beq_iff_eq.mp h
  rw [← encodeA_fields w, Laws.EncodingRow.admits_A] at h
  simpa only [fields_encodeA] using congrArg (fun w => (fields w).op) h

/-- A row that fixes the family and the low byte takes in the words that have both. -/
theorem encodeRI_of_byteMask {w : Word} {op : Nibble} {kk : Byte} (h : (w &&& 0xF0FF#16 == encodeRI op 0#4 kk) = true) :
    encodeRI op (fields w).x kk = w := by
  have h := beq_iff_eq.mp h
  rw [← encodeRI_fields w, (Laws.EncodingRow.admits_RI _ _ _).1] at h
  have hop := congrArg (fun w => (fields w).op) h
  have hkk := congrArg (fun w => (fields w).kk) h
  simp only [fields_encodeRI] at hop hkk
  exact encodeRI_of_op_kk hop hkk

/-- A row that fixes the family and the low nibble takes in the words that have both. -/
theorem encodeRR_of_nibbleMask {w : Word} {op n : Nibble} (h : (w &&& 0xF00F#16 == encodeRR op 0#4 0#4 n) = true) :
    encodeRR op (fields w).x (fields w).y n = w := by
  have h := beq_iff_eq.mp h
  rw [← encodeRR_fields w, (Laws.EncodingRow.admits_RR _ _ _ _).1] at h
  have hop := congrArg (fun w => (fields w).op) h
  have hn := congrArg (fun w => (fields w).n) h
  simp only [fields_encodeRR] at hop hn
  exact encodeRR_of_op_n hop hn

/-- A word that a row takes in is the word of an instruction of that row, its operands the word's own fields. -/
theorem exists_encode_of_admits {j : Instr} {w : Word} (h : (opcodeRow j).admits w = true) :
    ∃ i, encode i = w ∧ opcodeRow i = opcodeRow j := by
  match j with
  | .cls _ => exact ⟨.cls _, encodeRI_of_byteMask h, rfl⟩
  | .ret _ => exact ⟨.ret _, encodeRI_of_byteMask h, rfl⟩
  | .jp _ => exact ⟨.jp _, encodeA_of_op (op_of_familyMask h), rfl⟩
  | .call _ => exact ⟨.call _, encodeA_of_op (op_of_familyMask h), rfl⟩
  | .seImm _ _ => exact ⟨.seImm _ _, encodeRI_of_op (op_of_familyMask h), rfl⟩
  | .sneImm _ _ => exact ⟨.sneImm _ _, encodeRI_of_op (op_of_familyMask h), rfl⟩
  | .seReg _ _ _ => exact ⟨.seReg _ _ _, encodeRR_of_op (op_of_familyMask h), rfl⟩
  | .ldImm _ _ => exact ⟨.ldImm _ _, encodeRI_of_op (op_of_familyMask h), rfl⟩
  | .addImm _ _ => exact ⟨.addImm _ _, encodeRI_of_op (op_of_familyMask h), rfl⟩
  | .ldReg _ _ => exact ⟨.ldReg _ _, encodeRR_of_nibbleMask h, rfl⟩
  | .orReg _ _ => exact ⟨.orReg _ _, encodeRR_of_nibbleMask h, rfl⟩
  | .andReg _ _ => exact ⟨.andReg _ _, encodeRR_of_nibbleMask h, rfl⟩
  | .xorReg _ _ => exact ⟨.xorReg _ _, encodeRR_of_nibbleMask h, rfl⟩
  | .addReg _ _ => exact ⟨.addReg _ _, encodeRR_of_nibbleMask h, rfl⟩
  | .sub _ _ => exact ⟨.sub _ _, encodeRR_of_nibbleMask h, rfl⟩
  | .shr _ _ => exact ⟨.shr _ _, encodeRR_of_nibbleMask h, rfl⟩
  | .subn _ _ => exact ⟨.subn _ _, encodeRR_of_nibbleMask h, rfl⟩
  | .shl _ _ => exact ⟨.shl _ _, encodeRR_of_nibbleMask h, rfl⟩
  | .sneReg _ _ _ => exact ⟨.sneReg _ _ _, encodeRR_of_op (op_of_familyMask h), rfl⟩
  | .ldI _ => exact ⟨.ldI _, encodeA_of_op (op_of_familyMask h), rfl⟩
  | .jpV0 _ => exact ⟨.jpV0 _, encodeA_of_op (op_of_familyMask h), rfl⟩
  | .rnd _ _ => exact ⟨.rnd _ _, encodeRI_of_op (op_of_familyMask h), rfl⟩
  | .drw _ _ _ => exact ⟨.drw _ _ _, encodeRR_of_op (op_of_familyMask h), rfl⟩
  | .skp _ => exact ⟨.skp _, encodeRI_of_byteMask h, rfl⟩
  | .sknp _ => exact ⟨.sknp _, encodeRI_of_byteMask h, rfl⟩
  | .ldVxDt _ => exact ⟨.ldVxDt _, encodeRI_of_byteMask h, rfl⟩
  | .ldVxK _ => exact ⟨.ldVxK _, encodeRI_of_byteMask h, rfl⟩
  | .ldDtVx _ => exact ⟨.ldDtVx _, encodeRI_of_byteMask h, rfl⟩
  | .ldStVx _ => exact ⟨.ldStVx _, encodeRI_of_byteMask h, rfl⟩
  | .addI _ => exact ⟨.addI _, encodeRI_of_byteMask h, rfl⟩
  | .ldF _ => exact ⟨.ldF _, encodeRI_of_byteMask h, rfl⟩
  | .ldB _ => exact ⟨.ldB _, encodeRI_of_byteMask h, rfl⟩
  | .storeRegs _ => exact ⟨.storeRegs _, encodeRI_of_byteMask h, rfl⟩
  | .loadRegs _ => exact ⟨.loadRegs _, encodeRI_of_byteMask h, rfl⟩

/-- Settles O3: a word and its instruction determine one another, and a row takes in the words of its instructions
alone. -/
theorem decodeFollowsOpcodeMap : Obligations.DecodeFollowsOpcodeMap := by
  refine fun w => ⟨fun i h => ?_, fun j h => ?_⟩
  · rw [← encodeOfDecodeGivesWord w i h]
    exact admits_encode i
  · obtain ⟨i, rfl, hrow⟩ := exists_encode_of_admits h
    exact ⟨i, decodeWord_encode i, hrow⟩

/-! ### The fields as numbers -/

theorem fields_op_toNat (w : Word) : (fields w).op.toNat = w.toNat / 4096 := by
  have hw : w.toNat < 65536 := w.isLt
  simp only [fields, BitVec.extractLsb'_toNat, Nat.shiftRight_eq_div_pow]
  omega

theorem fields_n_toNat (w : Word) : (fields w).n.toNat = w.toNat % 16 := BitVec.extractLsb'_toNat 0 4 w

theorem fields_kk_toNat (w : Word) : (fields w).kk.toNat = w.toNat % 256 := BitVec.extractLsb'_toNat 0 8 w

/-- Settles O5: a field is a right shift and a remainder. -/
theorem fieldsAreTheBitsOfTheWord : Obligations.FieldsAreTheBitsOfTheWord := by
  refine fun w => ⟨fields_op_toNat w, ?x, ?y, fields_n_toNat w, fields_kk_toNat w, BitVec.extractLsb'_toNat 0 12 w⟩
  case x | y => simp only [fields, BitVec.extractLsb'_toNat, Nat.shiftRight_eq_div_pow]

/-! ### Illegal words -/

theorem decodeFamily0_error {w : Word} {f : Fields} :
    decodeFamily0 w f = .error (.invalidOpcode w) ↔ f.kk.toNat ≠ 0xE0 ∧ f.kk.toNat ≠ 0xEE := by
  unfold decodeFamily0
  split <;> simp_all [BitVec.toNat_eq]

theorem decodeFamily8_error {w : Word} {f : Fields} :
    decodeFamily8 w f = .error (.invalidOpcode w) ↔
      (0x8 ≤ f.n.toNat ∧ f.n.toNat ≤ 0xD) ∨ f.n.toNat = 0xF := by
  unfold decodeFamily8
  split
  case h_10 =>
    have hn : f.n.toNat < 16 := f.n.isLt
    simp only [BitVec.toNat_eq, BitVec.reduceToNat, imp_false, true_iff] at *
    omega
  all_goals simp [*]

theorem decodeFamilyE_error {w : Word} {f : Fields} :
    decodeFamilyE w f = .error (.invalidOpcode w) ↔ f.kk.toNat ≠ 0x9E ∧ f.kk.toNat ≠ 0xA1 := by
  unfold decodeFamilyE
  split <;> simp_all [BitVec.toNat_eq]

theorem decodeFamilyF_error {w : Word} {f : Fields} :
    decodeFamilyF w f = .error (.invalidOpcode w) ↔
      f.kk.toNat ∉ [0x07, 0x0A, 0x15, 0x18, 0x1E, 0x29, 0x33, 0x55, 0x65] := by
  unfold decodeFamilyF
  split <;> simp_all [BitVec.toNat_eq]

/-- Only the families with sub-opcodes refuse words (R75, R86). -/
theorem decodeWord_error_iff {w : Word} :
    decodeWord w = .error (.invalidOpcode w) ↔
      ((fields w).op = 0x0#4 ∧ decodeFamily0 w (fields w) = .error (.invalidOpcode w)) ∨
      ((fields w).op = 0x8#4 ∧ decodeFamily8 w (fields w) = .error (.invalidOpcode w)) ∨
      ((fields w).op = 0xE#4 ∧ decodeFamilyE w (fields w) = .error (.invalidOpcode w)) ∨
      ((fields w).op = 0xF#4 ∧ decodeFamilyF w (fields w) = .error (.invalidOpcode w)) := by
  by_cases hF : (fields w).op = 0xF#4
  · simp [decodeWord_of_op_F hF, hF]
  · unfold decodeWord
    simp only [hF, false_and, or_false]
    split
    case h_16 => exact absurd (op_eq_F _ ‹_› ‹_› ‹_› ‹_› ‹_› ‹_› ‹_› ‹_› ‹_› ‹_› ‹_› ‹_› ‹_› ‹_› ‹_›) hF
    all_goals simp [*]

theorem executeWord_of_error {w : Word} {e : DecodeError} (h : decodeWord w = .error e) (s : State) :
    executeWord w s = .fault (.invalidOpcode w) := by
  simp only [executeWord, h, raise]

theorem executeWord_of_ok {w : Word} {i : Instr} (h : decodeWord w = .ok i) (s : State) :
    executeWord w s = exec i s := by
  simp only [executeWord, h]

/-- Settles O4: the refusals of the four families with sub-opcodes, with their fields read as numbers. -/
theorem illegalWordsAreExactlyTheListed : Obligations.IllegalWordsAreExactlyTheListed := by
  refine fun w => ⟨?_, executeWord_of_error⟩
  simp only [decodeWord_error_iff, decodeFamily0_error, decodeFamily8_error, decodeFamilyE_error, decodeFamilyF_error,
    BitVec.toNat_eq, fields_op_toNat, fields_n_toNat, fields_kk_toNat, BitVec.reduceToNat]

/-- Settles O7: the decoder answers an instruction or refuses the word itself, without a look at the state. -/
theorem everyWordSelectsOneInstructionOrIsInvalid : Obligations.EveryWordSelectsOneInstructionOrIsInvalid := by
  intro w
  cases h : decodeWord w with
  | ok i => exact .inl ⟨i, rfl, fun j hj => (Except.ok.inj hj).symm, executeWord_of_ok h⟩
  | error e =>
    obtain rfl := decodeWord_error h
    exact .inr ⟨rfl, executeWord_of_error h⟩

/-- Settles O6: each word is computed. -/
theorem knownWordsDecode : Obligations.KnownWordsDecode := by
  unfold Obligations.KnownWordsDecode
  decide

/-! ### The execution cycle -/

theorem decodeBytes_pair {hi lo : Byte} {i : Instr} (h : decodeBytes [hi, lo] = .ok (i, [])) :
    decodeWord (wordOfBytes hi lo) = .ok i := by
  cases hd : decodeWord (wordOfBytes hi lo) <;> simp_all [decodeBytes]

/-- Settles O8: the two bytes at `PC` are the fetched word, and a word that fits memory passes the range check. -/
theorem stepRunsDecodedInstruction : Obligations.StepRunsDecodedInstruction := by
  intro s i hw hpc hd _
  have hrange : outOfRange s.pc.toNat 2 = false := by
    rw [← Bool.not_eq_true, outOfRange_iff]
    omega
  exact step_of_decodeWord hw hrange (decodeBytes_pair hd)

/-- A tick that finds the engine waiting counts the timers down (R80, R214). -/
theorem step_of_waiting {s : State} (hw : s.waiting = true) : step s = .next (decrementTimers s) :=
  tickOutcome_next.mpr (.inl ⟨hw, rfl⟩)

/-- Settles O11: by induction on the ticks, each of which counts the timers down and leaves the engine waiting. -/
theorem waitingTicksOnlyCountTimers : Obligations.WaitingTicksOnlyCountTimers := by
  intro s k hw
  induction k generalizing s with
  | zero => exact ⟨s, rfl, rfl, rfl, Keeps.refl _ s⟩
  | succ k ih =>
    obtain ⟨t, hrun, hdt, hst, hkeeps⟩ := ih (decrementTimers s) hw
    refine ⟨t, (run_succ_of_next (step_of_waiting hw) k).trans hrun, ?_, ?_, (keeps_decrementTimers s).trans hkeeps⟩
    · rw [hdt, decrementTimers_dt, countDown_toNat]
      omega
    · rw [hst, decrementTimers_st, countDown_toNat]
      omega

/-- Settles O14: `handle_opcode` settles what executing the word answers. -/
theorem handleOpcodeIsExecuteAlone : Obligations.HandleOpcodeIsExecuteAlone :=
  fun _ _ _ i hd he => settle_next (executeWord_next.mpr ⟨i, hd, he⟩)

end Sys2Proof.Machine
end

section
/-!
PROOFS of 40_control_flow.md. The targets of jumps and skips as numbers (R101, R103 to R107), call and return (R100,
R102, R109), and the bound on `PC` that every tick keeps (R107, D13).
-/

namespace Sys2Proof.Machine

/-! ### Jump targets -/

theorem zextAddr_toNat (nnn : Addr12) : (zextAddr nnn).toNat = nnn.toNat :=
  BitVec.toNat_setWidth_of_le (by decide)

theorem zextByte_toNat (b : Byte) : (zextByte b).toNat = b.toNat :=
  BitVec.toNat_setWidth_of_le (by decide)

/-- The target of `Bnnn` needs 13 bits at most, so the 16-bit sum does not wrap (R107). -/
theorem zextAddr_add_zextByte_toNat (nnn : Addr12) (b : Byte) :
    (zextAddr nnn + zextByte b).toNat = nnn.toNat + b.toNat := by
  rw [BitVec.toNat_add, zextAddr_toNat, zextByte_toNat]
  omega

theorem jpV0_target_le (nnn : Addr12) (b : Byte) : (zextAddr nnn + zextByte b).toNat ≤ 0x10FE := by
  rw [zextAddr_add_zextByte_toNat]
  omega

/-- Settles O38: each jump writes its target to `PC` alone, and neither target wraps. -/
theorem jumpsReplaceProgramCounter : Obligations.JumpsReplaceProgramCounter :=
  fun s nnn =>
    ⟨⟨_, rfl, zextAddr_toNat nnn, keeps_setPc s _⟩,
      ⟨_, rfl, zextAddr_add_zextByte_toNat nnn _, jpV0_target_le nnn _, keeps_setPc s _⟩⟩

/-! ### Skips -/

theorem skipIf_pc_toNat (c : Bool) (s : State) :
    (skipIf c s).pc.toNat = if c = true then (s.pc.toNat + 2) % 65536 else s.pc.toNat := by
  cases c <;> simp

/-- A skip in a state a tick can execute in stays below the bound on `PC`. -/
theorem skipIf_pc_le (c : Bool) {s : State} (h : s.pc.toNat ≤ 0x1000) : (skipIf c s).pc.toNat ≤ 0x10FE := by
  rw [skipIf_pc_toNat]
  split <;> omega

/-- Settles O37: each register skip is `skipIf` of its test, and neither meaning reads the ignored nibble. -/
theorem skipsAddTwoExactlyOnCondition : Obligations.SkipsAddTwoExactlyOnCondition := by
  intro s
  refine ⟨fun x kk => ⟨_, rfl, ?seImm, keeps_skipIf _ s⟩, fun x kk => ⟨_, rfl, ?sneImm, keeps_skipIf _ s⟩,
    fun x y => ⟨_, fun u => rfl, ?seReg, keeps_skipIf _ s⟩, fun x y => ⟨_, fun u => rfl, ?sneReg, keeps_skipIf _ s⟩⟩
  case seImm | seReg => simp only [skipIf_pc_toNat, beq_iff_eq]
  case sneImm | sneReg => simp only [skipIf_pc_toNat, bne_iff_ne, ite_not]

/-! ### Call and return -/

theorem exec_call {s : State} (h : s.stack.length ≠ s.config.stackDepth) (nnn : Addr12) :
    exec (.call nnn) s = .next (setPc (pushStack s s.pc) (zextAddr nnn)) :=
  if_neg h

theorem exec_call_full {s : State} (h : s.stack.length = s.config.stackDepth) (nnn : Addr12) :
    exec (.call nnn) s = .fault .stackOverflow :=
  if_pos h

theorem exec_ret {s : State} {rest : List Word} {a : Word} (h : s.stack = rest ++ [a]) (u : Nibble) :
    exec (.ret u) s = .next (setPc { s with stack := rest } a) := by
  have hpop : popStack s = some (a, { s with stack := rest }) := popStack_some.2 (by simp [h])
  simp [exec, execRet, hpop]

theorem exec_ret_empty {s : State} (h : s.stack = []) (u : Nibble) : exec (.ret u) s = .fault .stackUnderflow := by
  simp [exec, execRet, popStack_none.2 h, raise]

/-- Settles O39: the check of R102 decides between the push with the jump and the overflow. -/
theorem callPushesAndJumps : Obligations.CallPushesAndJumps :=
  fun s nnn =>
    ⟨fun h => ⟨_, exec_call h nnn, rfl, zextAddr_toNat nnn, keeps_setStackPc s _ _⟩, fun h => exec_call_full h nnn⟩

/-- Settles O40: a stack with a last entry gives it up to `PC`, and an empty one underflows. -/
theorem returnPopsIntoProgramCounter : Obligations.ReturnPopsIntoProgramCounter :=
  fun s u =>
    ⟨fun rest a h => ⟨_, exec_ret h u, rfl, rfl, keeps_setStackPc s rest a⟩, fun h => exec_ret_empty h u⟩

/-- Settles O41: the last entry of the callee's stack is the one the call pushed. -/
theorem callThenReturnRestores : Obligations.CallThenReturnRestores :=
  fun _ nnn h => ⟨_, exec_call h nnn, fun _ u hk => ⟨_, exec_ret hk u, rfl, rfl⟩⟩

/-! ### The bound on `PC` -/

theorem PcInRange.of_stack_eq {s t : State} (h : PcInRange s) (hpc : t.pc.toNat ≤ 0x10FE) (hk : t.stack = s.stack) :
    PcInRange t :=
  ⟨hpc, hk ▸ h.stack⟩

/-- From a `PC` that the fetch's check let through, advanced by 2, an instruction that completes keeps the bounds: a
jump and a call write a target of 12 bits (13 for `Bnnn`), a skip adds 2, a call pushes a `PC` of at most 0x1000, a
return takes such an entry from the stack, and every other instruction leaves `PC` and the stack alone (R27, R30). -/
theorem PcInRange.exec {i : Instr} {s t : State} (hs : PcInRange s) (hpc : s.pc.toNat ≤ 0x1000)
    (h : exec i s = .next t) : PcInRange t := by
  have hk := exec_keeps h
  cases i with
  | jp nnn =>
    cases h
    refine hs.of_stack_eq ?_ rfl
    rw [setPc_pc, zextAddr_toNat]
    omega
  | jpV0 nnn => cases h; exact hs.of_stack_eq (jpV0_target_le nnn _) rfl
  | seImm | sneImm | seReg | sneReg => cases h; exact hs.of_stack_eq (skipIf_pc_le _ hpc) (hk.stack rfl)
  | skp => obtain ⟨_, _, rfl⟩ := execSkp_next h; exact hs.of_stack_eq (skipIf_pc_le _ hpc) (hk.stack rfl)
  | sknp => obtain ⟨_, _, rfl⟩ := execSknp_next h; exact hs.of_stack_eq (skipIf_pc_le _ hpc) (hk.stack rfl)
  | call nnn =>
    obtain ⟨_, rfl⟩ := execCall_next h
    constructor
    · rw [setPc_pc, zextAddr_toNat]
      omega
    · intro a ha
      rw [setPc_stack, pushStack_stack, List.mem_append, List.mem_singleton] at ha
      rcases ha with ha | rfl
      · exact hs.stack a ha
      · exact hpc
  | ret u =>
    obtain ⟨a, ha, rfl⟩ := execRet_next (u := u) h
    exact ⟨(hs.stack a (List.mem_of_getLast? ha)).trans (by decide),
      fun b hb => hs.stack b (List.dropLast_subset s.stack hb)⟩
  | _ => exact hs.of_stack_eq (hk.pc rfl ▸ hs.pc) (hk.stack rfl)

/-- A tick fetches at 0xFFE at most, so the instruction runs with `PC` at most 0x1000 (R26, R55). -/
theorem advancePc_pc_le {s : State} (h : outOfRange s.pc.toNat 2 = false) : (advancePc s).pc.toNat ≤ 0x1000 := by
  have hfit : s.pc.toNat + 2 ≤ 0x1000 := inRange_of_not_outOfRange h (Nat.succ_pos 1)
  have hlt : s.pc.toNat + (2#16).toNat < 2 ^ 16 := hfit.trans_lt (by decide)
  rw [advancePc_pc, BitVec.toNat_add_of_lt hlt]
  exact hfit

/-- Settles O20: a waiting tick leaves `PC` and the stack alone, and any other executes from a `PC` of at most 0x1000. -/
theorem stepKeepsPcInRange : Obligations.StepKeepsPcInRange := by
  intro s t hs h
  rcases tickOutcome_next.1 h with ⟨_, rfl⟩ | ⟨_, hrange, i, u, _, he, rfl⟩
  · exact hs.of_stack_eq hs.pc rfl
  · have hpc := advancePc_pc_le hrange
    have hadvanced : PcInRange (advancePc s) := hs.of_stack_eq (hpc.trans (by decide)) rfl
    have hu := hadvanced.exec hpc he
    exact hu.of_stack_eq hu.pc rfl

end Sys2Proof.Machine
end

section
/-!
PROOFS of 41_alu.md. The flags and results of the arithmetic family as numbers (R123, R128 to R132), what a result
written before its flag leaves in the registers (R121), and register load, logic and the random draw (R122 to R127,
R133).
-/

namespace Sys2Proof.Machine

/-! ### Flags as numbers -/

theorem flagByte_toNat (b : Bool) : (flagByte b).toNat = b.toNat := by
  cases b <;> rfl

theorem flagByte_decide_toNat (p : Prop) [Decidable p] : (flagByte (decide p)).toNat = if p then 1 else 0 := by
  rw [flagByte_toNat]
  split_ifs with h <;> simp [h]

theorem carryFlag_toNat (a b : Byte) : (carryFlag a b).toNat = if 256 ≤ a.toNat + b.toNat then 1 else 0 :=
  flagByte_decide_toNat _

theorem noBorrowFlag_toNat (a b : Byte) : (noBorrowFlag a b).toNat = if a.toNat ≥ b.toNat then 1 else 0 :=
  flagByte_decide_toNat _

/-- The flag of a bit is that bit's digit in the byte. -/
theorem flagByte_getLsbD_toNat (a : Byte) (k : Nat) : (flagByte (a.getLsbD k)).toNat = a.toNat / 2 ^ k % 2 := by
  rw [flagByte_toNat]
  exact Nat.toNat_testBit a.toNat k

theorem shiftRightFlag_toNat (a : Byte) : (shiftRightFlag a).toNat = a.toNat % 2 := by
  rw [shiftRightFlag, flagByte_getLsbD_toNat, pow_zero, Nat.div_one]

/-- Bit 7 is the last digit of a byte, so nothing remains to be cut off above it. -/
theorem shiftLeftFlag_toNat (a : Byte) : (shiftLeftFlag a).toNat = a.toNat / 128 := by
  rw [shiftLeftFlag, flagByte_getLsbD_toNat]
  omega

/-! ### Results as numbers -/

theorem addResult_toNat (a b : Byte) : (addResult a b).toNat = (a.toNat + b.toNat) % 256 := by
  rw [addResult, BitVec.toNat_ofNat, Nat.mod_mod]

theorem subResult_toNat (a b : Byte) : (subResult a b).toNat = (a.toNat + 256 - b.toNat) % 256 := by
  rw [subResult, BitVec.toNat_ofNat, Nat.mod_mod]

theorem shiftRightResult_toNat (a : Byte) : (shiftRightResult a).toNat = a.toNat / 2 := by
  rw [shiftRightResult, BitVec.toNat_ushiftRight, Nat.shiftRight_one]

theorem shiftLeftResult_toNat (a : Byte) : (shiftLeftResult a).toNat = a.toNat * 2 % 256 := by
  rw [shiftLeftResult, BitVec.toNat_shiftLeft, Nat.shiftLeft_eq, pow_one]

/-! ### Instructions that write a result and no flag -/

/-- Settles O30: the word is the instruction's encoding, and the immediate is what is written. -/
theorem loadImmediateSetsRegister : Obligations.LoadImmediateSetsRegister :=
  fun x kk => ⟨decodeWord_encode (.ldImm x kk), fun s => ⟨_, rfl, readV_writeV_self s x kk, keeps_writeV s x kk⟩⟩

/-- Settles O31: the register reads as the sum that is written, and the write touches nothing else. -/
theorem addImmediateWrapsWithoutFlag : Obligations.AddImmediateWrapsWithoutFlag := by
  refine fun s x kk => ⟨_, rfl, ?_, keeps_writeV s x _⟩
  rw [readV_writeV_self, addResult_toNat]

/-- Settles O32: each of the four writes `V[x]` once, and the bits of what it writes are those of the operation. -/
theorem copyAndLogicSetRegisterBitwise : Obligations.CopyAndLogicSetRegisterBitwise := by
  refine fun s x y => ⟨⟨_, rfl, readV_writeV_self s x _, keeps_writeV s x _⟩,
    ⟨_, rfl, fun b => ?or, keeps_writeV s x _⟩, ⟨_, rfl, fun b => ?and, keeps_writeV s x _⟩,
    ⟨_, rfl, fun b => ?xor, keeps_writeV s x _⟩⟩
  case or => rw [readV_writeV_self, BitVec.getLsbD_or]
  case and => rw [readV_writeV_self, BitVec.getLsbD_and]
  case xor => rw [readV_writeV_self, BitVec.getLsbD_xor]

theorem exec_rnd (x : Nibble) (kk : Byte) (s : State) :
    exec (.rnd x kk) s = .next (writeV (takeDraw s).2 x (Config.rand8 s.draws &&& kk)) := rfl

/-- Settles O36: the draw is counted and its byte masked; a mask only clears bits, so the result is at most `kk`. -/
theorem randomIsOneMaskedDraw : Obligations.RandomIsOneMaskedDraw := by
  refine fun s x kk => ⟨_, exec_rnd x kk s, rfl, fun b => ?bits, ?le, keeps_writeV_takeDraw s x _⟩
  case bits => rw [readV_writeV_self, BitVec.getLsbD_and]
  case le =>
    rw [readV_writeV_self, BitVec.toNat_and]
    exact Nat.and_le_right

/-! ### Instructions that write a result and a flag -/

/-- A result and then a flag, both known as numbers: `VF` holds the flag, also for `x = 15`; any other destination holds
the result; and nothing else changed (R121, D4). -/
theorem writeVThenFlag_spec (s : State) (x : Nibble) {b flag : Byte} {resultVal flagVal : Nat}
    (hflag : flag.toNat = flagVal) (hresult : b.toNat = resultVal) :
    (readV (writeVThenFlag s x b flag) flagReg).toNat = flagVal ∧
      (x ≠ flagReg → (readV (writeVThenFlag s x b flag) x).toNat = resultVal) ∧
      Keeps { regs := fun r => r = x ∨ r = flagReg } s (writeVThenFlag s x b flag) := by
  refine ⟨?_, fun hx => ?_, keeps_writeVThenFlag s x b flag⟩
  · rw [readV_writeVThenFlag, if_pos rfl, hflag]
  · rw [readV_writeVThenFlag, if_neg hx, if_pos rfl, hresult]

/-- Settles O33: the flag written last is the carry of the operands as they were read. -/
theorem addRegistersSetsSumAndCarry : Obligations.AddRegistersSetsSumAndCarry :=
  fun s x _ => ⟨_, rfl, writeVThenFlag_spec s x (carryFlag_toNat ..) (addResult_toNat ..)⟩

/-- Settles O34: the two subtractions differ in which operand is the minuend. -/
theorem subtractSetsDifferenceAndNoBorrow : Obligations.SubtractSetsDifferenceAndNoBorrow :=
  fun s x _ =>
    ⟨⟨_, rfl, writeVThenFlag_spec s x (noBorrowFlag_toNat ..) (subResult_toNat ..)⟩,
      ⟨_, rfl, writeVThenFlag_spec s x (noBorrowFlag_toNat ..) (subResult_toNat ..)⟩⟩

/-- Settles O35: neither meaning reads `y`, and the flag is the digit that the shift moves out. -/
theorem shiftsMoveOneBitIntoFlag : Obligations.ShiftsMoveOneBitIntoFlag :=
  fun s x _ =>
    ⟨⟨_, fun _ => rfl, rfl, writeVThenFlag_spec s x (shiftRightFlag_toNat _) (shiftRightResult_toNat _)⟩,
      ⟨_, fun _ => rfl, rfl, writeVThenFlag_spec s x (shiftLeftFlag_toNat _) (shiftLeftResult_toNat _)⟩⟩

end Sys2Proof.Machine
end

section
/-!
PROOFS of 42_index_memory.md. The writers of `I` as numbers (R150 to R152), the three decimal digits of a byte (R153),
and the block store and block load with their round trip (R154, R155, R157).
-/

namespace Sys2Proof.Machine

/-! ### `I` set, added to and set to a glyph -/

/-- Either mode's digit as a number (R152, D10). -/
theorem fontDigit_eq (mode : FontDigitMode) (v : Byte) :
    fontDigit mode v = if mode = .lowNibble then v.toNat % 16 else v.toNat := by
  cases mode
  case lowNibble => exact BitVec.extractLsb'_toNat 0 4 v
  case fullByte => rfl

/-- A digit is at most 255, so the glyph's address does not wrap. -/
theorem glyphAddress_fontDigit_toNat (mode : FontDigitMode) (v : Byte) :
    (glyphAddress (fontDigit mode v)).toNat = 0x50 + 5 * if mode = .lowNibble then v.toNat % 16 else v.toNat := by
  rw [fontDigit_eq, glyphAddress, fontBase, BitVec.toNat_ofNat]
  apply Nat.mod_eq_of_lt
  split <;> omega

/-- Settles O42: each of the three writes `I` alone. -/
theorem indexLoadsAddAndGlyph : Obligations.IndexLoadsAddAndGlyph := by
  refine fun s => ⟨fun nnn => ⟨_, rfl, zextAddr_toNat nnn, keeps_setI s _⟩, fun x => ⟨_, rfl, ?_, keeps_setI s _⟩,
    fun x => ⟨_, rfl, glyphAddress_fontDigit_toNat _ _, keeps_setI s _⟩⟩
  rw [setI_i, BitVec.toNat_add, zextByte_toNat]

/-! ### An instruction whose range lies in memory completes -/

theorem checkRange_of_fits {a n : Nat} (h : a + n ≤ memSize) (rest : Result) : checkRange a n rest = rest := by
  refine if_neg fun hout => ?_
  have hpast := (outOfRange_iff a n).1 hout
  rw [memSize] at h
  omega

theorem exec_ldB {s : State} (h : dataAddress s + 3 ≤ memSize) (x : Nibble) :
    exec (.ldB x) s = .next (writeBytes s (dataAddress s) (bcdDigits (readV s x))) :=
  checkRange_of_fits h _

theorem exec_storeRegs {s : State} {x : Nibble} (h : dataAddress s + (x.toNat + 1) ≤ memSize) :
    exec (.storeRegs x) s = .next (advanceI (writeBytes s (dataAddress s) (regsUpTo s x)) x) :=
  checkRange_of_fits h _

theorem exec_loadRegs {s : State} {x : Nibble} (h : dataAddress s + (x.toNat + 1) ≤ memSize) :
    exec (.loadRegs x) s = .next (advanceI (loadRegsBelow s (dataAddress s) (x.toNat + 1)) x) :=
  checkRange_of_fits h _

/-- After a block that lies in memory `I` is at most 0x1000, so its advance does not wrap (R154, R155). -/
theorem advanceI_i_toNat {s t : State} {x : Nibble} (hi : t.i = s.i) (h : s.i.toNat + x.toNat ≤ 0xFFF) :
    (advanceI t x).i.toNat = s.i.toNat + x.toNat + 1 := by
  rw [advanceI_i, hi, BitVec.toNat_ofNat]
  omega

/-! ### Decimal digits -/

/-- The digits that `Fx33` writes are the value's decimal expansion, and the last two are below 10. -/
theorem bcdDigits_spec (v : Byte) :
    ∃ hundreds tens ones : Byte, bcdDigits v = [hundreds, tens, ones] ∧
      100 * hundreds.toNat + 10 * tens.toNat + ones.toNat = v.toNat ∧ tens.toNat ≤ 9 ∧ ones.toNat ≤ 9 := by
  refine ⟨_, _, _, rfl, ?_⟩
  simp only [BitVec.toNat_ofNat]
  omega

/-- Settles O43: the three bytes at `I` and up are the digits written there. -/
theorem bcdWritesThreeDigits : Obligations.BcdWritesThreeDigits := by
  intro s x hm h
  have hfit : dataAddress s + 3 ≤ memSize := Nat.succ_le_succ h
  have hexec := exec_ldB hfit x
  obtain ⟨hundreds, tens, ones, hdigits, hvalue, htens, hones⟩ := bcdDigits_spec (readV s x)
  rw [hdigits] at hexec
  have hbyte {k : Nat} {b : Byte} (hb : [hundreds, tens, ones][k]? = some b) :
      readByte (writeBytes s (dataAddress s) [hundreds, tens, ones]) (dataAddress s + k) = b :=
    readByte_writeBytes_of_getElem? hm hfit hb
  have h0 := hbyte (k := 0) rfl
  have h1 := hbyte (k := 1) rfl
  have h2 := hbyte (k := 2) rfl
  rw [Nat.add_zero] at h0
  refine ⟨_, hexec, ?_, ?_, ?_, exec_keeps hexec⟩
  · rw [h0, h1, h2, hvalue]
  · rwa [h1]
  · rwa [h2]

/-! ### Block store and block load -/

/-- After a block load that completed, `V[r]` is the byte at `I + r`, `I` as before the instruction (R155). -/
theorem readV_of_loadRegs {s t : State} {x r : Nibble} (h : exec (.loadRegs x) s = .next t) (hr : r.toNat ≤ x.toNat) :
    readV t r = readByte s (dataAddress s + r.toNat) := by
  obtain ⟨_, rfl⟩ := execLoadRegs_next h
  rw [readV_advanceI, readV_loadRegsBelow s _ _ x.isLt, if_pos (Nat.lt_succ_of_le hr)]

/-- Settles O44: the block passes its check, and its bytes are the registers' in order. -/
theorem blockStoreWritesRegisters : Obligations.BlockStoreWritesRegisters := by
  intro s x hm h
  have hexec := exec_storeRegs (Nat.succ_le_succ h)
  exact ⟨_, hexec, fun r hr => readByte_of_storeRegs hm hexec hr, advanceI_i_toNat (writeBytes_i ..) h, exec_keeps hexec⟩

/-- Settles O45: the block passes its check, and each register up to `x` takes its byte. -/
theorem blockLoadReadsRegisters : Obligations.BlockLoadReadsRegisters := by
  intro s x h
  have hexec := exec_loadRegs (Nat.succ_le_succ h)
  exact ⟨_, hexec, fun r hr => readV_of_loadRegs hexec hr, advanceI_i_toNat (loadRegsBelow_i ..) h, exec_keeps hexec⟩

/-- Settles O46: the load reads at the same `I` the bytes that the store left there, and both advance `I` alike. -/
theorem blockStoreThenLoadRoundTrips : Obligations.BlockStoreThenLoadRoundTrips := by
  intro s x hm h
  obtain ⟨t, hstore, hbytes, hti, _⟩ := blockStoreWritesRegisters s x hm h
  refine ⟨t, hstore, hti, fun w hw hmem => ?_⟩
  have haddr : dataAddress w = dataAddress s := congrArg BitVec.toNat hw
  obtain ⟨r, hload, hregs, hri, _⟩ := blockLoadReadsRegisters w x (hw ▸ h)
  refine ⟨r, hload, BitVec.eq_of_toNat_eq (by rw [hri, hti, hw]), fun k hk => ?_⟩
  calc
    readV r k = readByte w (dataAddress w + k.toNat) := hregs k hk
    _ = readByte t (dataAddress s + k.toNat) := by rw [haddr, hmem]
    _ = readV s k := hbytes k hk

end Sys2Proof.Machine
end

section
/-!
PROOFS of 43_display.md. Clearing the screen (R170), and the draw: each set sprite bit flips one pixel, no two bits of a
sprite reach the same pixel, so the bits compose to one flip of all the targets (R171 to R174), which undoes itself
(R175).
-/

namespace Sys2Proof.Machine

/-- Settles O48: the meaning reads neither the state nor bits 11:8 of the word for what it puts on the screen. -/
theorem clearScreenZeroesEveryPixel : Obligations.ClearScreenZeroesEveryPixel :=
  fun s => ⟨_, fun _ => rfl, pixel_clearFramebuffer, keeps_setFb s _⟩

/-! ### Exclusive-or of propositions -/

theorem bxor_eq_true_iff (a b : Bool) : (a ^^ b) = true ↔ Xor (a = true) (b = true) := by
  rw [Bool.xor_iff_ne, ne_eq, Bool.eq_iff_iff, xor_iff_not_iff]

theorem xor_xor_cancel_right (a b : Prop) : Xor (Xor a b) b ↔ a := by
  unfold Xor
  tauto

/-! ### Flips of a set of pixels -/

/-- From canvas `p` to canvas `q` exactly the pixels of `T` were flipped, and a collision was added exactly when one of
them was 1 (R173). -/
structure Flips (T : Fin 64 → Fin 32 → Prop) (p q : Canvas) : Prop where
  pixel_iff : ∀ x y, pixel q.fb x y = true ↔ Xor (pixel p.fb x y = true) (T x y)
  collision_iff : q.collision = true ↔ p.collision = true ∨ ∃ x y, T x y ∧ pixel p.fb x y = true

theorem Flips.none (p : Canvas) : Flips (fun _ _ => False) p p where
  pixel_iff := fun _ _ => by rw [xor_comm, xor_false, id]
  collision_iff := by simp

/-- Flips of disjoint sets compose: the second finds its pixels as the first did. -/
theorem Flips.trans {T U : Fin 64 → Fin 32 → Prop} {p q w : Canvas} (h : Flips T p q) (k : Flips U q w)
    (disjoint : ∀ x y, T x y → ¬ U x y) : Flips (fun x y => T x y ∨ U x y) p w where
  pixel_iff x y := by
    have hxy := disjoint x y
    rw [k.pixel_iff, h.pixel_iff]
    unfold Xor
    tauto
  collision_iff := by
    have hpixel {x y} (hU : U x y) : pixel q.fb x y = true ↔ pixel p.fb x y = true := by
      rw [h.pixel_iff, eq_false fun hT => disjoint x y hT hU, xor_comm, xor_false, id]
    have hcollide : (∃ x y, U x y ∧ pixel q.fb x y = true) ↔ ∃ x y, U x y ∧ pixel p.fb x y = true :=
      exists₂_congr fun _ _ => and_congr_right hpixel
    simp only [k.collision_iff, h.collision_iff, hcollide, or_and_right, exists_or, or_assoc]

/-! ### What a sprite flips -/

/-- Bit `7 - c` of the row at `r` below the anchor is set and targets pixel `(px, py)` (R171, R172). -/
def BitTargets (cx cy r : Nat) (row : Byte) (c : Nat) (px : Fin 64) (py : Fin 32) : Prop :=
  px.val = (cx + c) % 64 ∧ py.val = (cy + r) % 32 ∧ row.getLsbD (7 - c) = true

theorem bitTargets_iff {cx cy r c : Nat} {row : Byte} {px : Fin 64} {py : Fin 32} :
    BitTargets cx cy r row c px py ↔
      row.getLsbD (7 - c) = true ∧ px = Fin.ofNat 64 (cx + c) ∧ py = Fin.ofNat 32 (cy + r) := by
  rw [BitTargets, ← and_assoc, and_comm, Fin.ext_iff, Fin.ext_iff, Fin.val_ofNat, Fin.val_ofNat]

theorem flips_drawBit (cx cy r : Nat) (row : Byte) (p : Canvas) (c : Nat) :
    Flips (BitTargets cx cy r row c) p (drawBit cx cy r row p c) where
  pixel_iff x y := by
    rw [pixel_drawBit, bxor_eq_true_iff, Bool.and_eq_true, decide_eq_true_eq, bitTargets_iff]
  collision_iff := by
    simp [collision_drawBit, bitTargets_iff]

/-- A set bit of the row at `r` below the anchor targets pixel `(px, py)` (R171, R172). -/
def RowTargets (cx cy r : Nat) (row : Byte) (px : Fin 64) (py : Fin 32) : Prop :=
  ∃ c < 8, BitTargets cx cy r row c px py

/-- The first `k` columns of a row: up to 64 columns wrap to different pixels (R172). -/
theorem flips_drawColumns (cx cy r : Nat) (row : Byte) (p : Canvas) {k : Nat} (hk : k ≤ 64) :
    Flips (fun x y => ∃ c < k, BitTargets cx cy r row c x y) p ((List.range k).foldl (drawBit cx cy r row) p) := by
  induction k with
  | zero =>
    simp only [Nat.not_lt_zero, false_and, exists_false]
    exact Flips.none p
  | succ k ih =>
    rw [List.range_succ, List.foldl_concat]
    simp only [Nat.exists_lt_succ_right]
    refine (ih (by omega)).trans (flips_drawBit cx cy r row _ k) ?_
    rintro x y ⟨c, hc, hx, _⟩ ⟨hx', _⟩
    omega

theorem flips_drawRow (cx cy r : Nat) (row : Byte) (p : Canvas) :
    Flips (RowTargets cx cy r row) p (drawRow cx cy r row p) :=
  flips_drawColumns cx cy r row p (k := 8) (by decide)

/-- The `n` rows whose bytes start at address `a`: up to 32 rows wrap to different pixels (R172). -/
theorem flips_drawRows (s : State) (cx cy : Nat) {r a n : Nat} (p : Canvas) (hn : n ≤ 32) :
    Flips (fun x y => ∃ k < n, RowTargets cx cy (r + k) (readByte s (a + k)) x y) p
      (drawRows cx cy r (readBytes s a n) p) := by
  induction n generalizing r a p with
  | zero =>
    simp only [Nat.not_lt_zero, false_and, exists_false]
    exact Flips.none p
  | succ n ih =>
    have hrest := ih (r := r + 1) (a := a + 1) (drawRow cx cy r (readByte s a) p) (by omega)
    simp only [Nat.exists_lt_succ_left, Nat.add_zero]
    simp only [Nat.add_right_comm _ 1, Nat.add_assoc _ _ 1] at hrest
    refine (flips_drawRow cx cy r (readByte s a) p).trans hrest ?_
    rintro x y ⟨_, _, _, hy, _⟩ ⟨k, hk, _, _, _, hy', _⟩
    omega

/-- The targets of a sprite, row by row. -/
theorem spriteTargets_iff {s : State} {cx cy n : Nat} {px : Fin 64} {py : Fin 32} :
    SpriteTargets s cx cy n px py ↔ ∃ k < n, RowTargets cx cy k (readByte s (dataAddress s + k)) px py :=
  ⟨fun ⟨c, k, hc, hk, hbit⟩ => ⟨k, hk, c, hc, hbit⟩, fun ⟨k, hk, c, hc, hbit⟩ => ⟨c, k, hc, hk, hbit⟩⟩

/-- A sprite of at most 32 rows flips the pixels it targets, each once (R171 to R173). -/
theorem flips_drawSprite (s : State) (cx cy : Nat) {n : Nat} (hn : n ≤ 32) (fb : Framebuffer) :
    Flips (SpriteTargets s cx cy n) ⟨fb, false⟩ (drawSprite cx cy (readBytes s (dataAddress s) n) fb) := by
  have h := flips_drawRows s cx cy (r := 0) (a := dataAddress s) ⟨fb, false⟩ hn
  simp only [Nat.zero_add, ← spriteTargets_iff] at h
  exact h

/-! ### The draw -/

theorem flagByte_eq_one_iff (b : Bool) : flagByte b = 1#8 ↔ b = true := by
  cases b <;> decide

/-- A draw whose rows lie in memory completes with its targets flipped and their collision in `VF`. -/
theorem exec_drw_flips {s : State} {n : Nibble} (x y : Nibble) (h : n.toNat = 0 ∨ s.i.toNat + n.toNat - 1 ≤ 0xFFF) :
    ∃ q : Canvas, Flips (SpriteTargets s (readV s x).toNat (readV s y).toNat n.toNat) ⟨s.fb, false⟩ q ∧
      exec (.drw x y n) s = .next (writeFlag { writeFlag s 0#8 with fb := q.fb } (flagByte q.collision)) := by
  have hrange : outOfRange (dataAddress s) n.toNat = false := by
    rw [← Bool.not_eq_true, outOfRange_iff, dataAddress]
    omega
  exact ⟨_, flips_drawSprite (writeFlag s 0#8) _ _ (by omega) s.fb, checkRange_next.2 ⟨hrange, rfl⟩⟩

/-- Settles O49: the flips of the whole sprite from no collision, and the footprint of a draw. -/
theorem drawFlipsTargetedPixels : Obligations.DrawFlipsTargetedPixels := by
  intro s x y n h
  obtain ⟨q, hflips, hexec⟩ := exec_drw_flips x y h
  refine ⟨_, hexec, hflips.pixel_iff, exec_flag_zero_or_one rfl hexec, ?flag, exec_keeps hexec⟩
  case flag =>
    rw [writeFlag, readV_writeV_self, flagByte_eq_one_iff, hflips.collision_iff]
    simp

/-- The targets depend on `I` and the bytes of memory alone. -/
theorem spriteTargets_congr {s u : State} (hi : u.i = s.i) (hmem : ∀ a, readByte u a = readByte s a)
    (cx cy n : Nat) : SpriteTargets u cx cy n = SpriteTargets s cx cy n := by
  funext px py
  simp only [SpriteTargets, hi, hmem]

/-- Settles O50: the second draw flips the same pixels back, and on them it finds the opposite of what the first did. -/
theorem drawTwiceRestoresEveryPixel : Obligations.DrawTwiceRestoresEveryPixel := by
  intro s x y n h
  obtain ⟨t, hexec, hpixel, hbit, hflag, _⟩ := drawFlipsTargetedPixels s x y n h
  refine ⟨t, hexec, fun hclear => hbit.resolve_right fun h1 => ?_, fun u x' y' hfb hi hmem hx hy => ?_⟩
  · obtain ⟨px, py, htarget, hone⟩ := hflag.1 h1
    simp [hclear px py htarget] at hone
  · obtain ⟨w, hexec', hpixel', _, hflag', _⟩ := drawFlipsTargetedPixels u x' y' n (hi ▸ h)
    rw [spriteTargets_congr hi hmem, hx, hy, hfb] at hpixel' hflag'
    refine ⟨w, hexec', framebuffer_ext fun px py => ?_, hflag'.trans ?_⟩
    · rw [Bool.eq_iff_iff, hpixel', hpixel, xor_xor_cancel_right]
    · refine exists₂_congr fun px py => and_congr_right fun htarget => ?_
      rw [hpixel, eq_true htarget, xor_comm, xor_true, Bool.not_eq_true]

end Sys2Proof.Machine
end

section
/-!
PROOFS of 44_keys_timers.md. The key a skip names (R185 to R187), the timer moves and the beginning of the key-wait
(R188 to R191), and the countdown that ends every tick that completes (R193).
-/

namespace Sys2Proof.Machine

/-! ### The key a skip names -/

/-- A value up to 15 is its own low nibble, so wherever no error is raised the index is the low nibble (R185). -/
theorem keyIndex_ok {mode : KeyIndexMode} {v : Byte} (h : v.toNat ≤ 15 ∨ mode = .lowNibble) :
    keyIndex mode v = .ok (v.extractLsb' 0 4) := by
  rcases h with hle | rfl
  · exact if_pos hle
  · exact ite_self _

theorem keyIndex_fault {v : Byte} (h : 15 < v.toNat) : keyIndex .fault v = .error (.keyIndexOutOfRange v.toNat) :=
  if_neg (Nat.not_le.2 h)

/-- The key skips test the state of the key that `V[x]` is, or whose index its low nibble is where that mode is set. -/
theorem keyOperand_of_names {s : State} {x : Nibble} {k : Fin 16}
    (h : (readV s x).toNat = k.val ∨ (s.config.keyIndexMode = .lowNibble ∧ (readV s x).toNat % 16 = k.val)) :
    keyOperand s x = .ok s.keys[k.val] := by
  have hindex : keyIndex s.config.keyIndexMode (readV s x) = .ok ((readV s x).extractLsb' 0 4) :=
    keyIndex_ok (h.imp (fun hv => by omega) And.left)
  have hk : ((readV s x).extractLsb' 0 4).toNat = k.val := by
    have hlow : ((readV s x).extractLsb' 0 4).toNat = (readV s x).toNat % 16 := BitVec.extractLsb'_toNat 0 4 _
    omega
  simp only [keyOperand, hindex, keyState, hk]

theorem keyOperand_fault {s : State} {x : Nibble} (h : 15 < (readV s x).toNat)
    (hmode : s.config.keyIndexMode = .fault) : keyOperand s x = .error (.keyIndexOutOfRange (readV s x).toNat) := by
  simp only [keyOperand, hmode, keyIndex_fault h]

/-! ### The key skips -/

theorem exec_skp_of_ok {s : State} {x : Nibble} {pressed : Bool} (h : keyOperand s x = .ok pressed) :
    exec (.skp x) s = .next (skipIf pressed s) := by
  simp only [exec, execSkp, h]

theorem exec_sknp_of_ok {s : State} {x : Nibble} {pressed : Bool} (h : keyOperand s x = .ok pressed) :
    exec (.sknp x) s = .next (skipIf (!pressed) s) := by
  simp only [exec, execSknp, h]

theorem exec_skp_of_error {s : State} {x : Nibble} {e : Fault} (h : keyOperand s x = .error e) :
    exec (.skp x) s = .fault e := by
  simp only [exec, execSkp, h, raise]

theorem exec_sknp_of_error {s : State} {x : Nibble} {e : Fault} (h : keyOperand s x = .error e) :
    exec (.sknp x) s = .fault e := by
  simp only [exec, execSknp, h, raise]

/-- Settles O51: each key skip is `skipIf` of the state of the named key or of its opposite, and both raise the error of
the key index. -/
theorem keySkipsTestTheNamedKey : Obligations.KeySkipsTestTheNamedKey := by
  refine fun s x => ⟨fun k hk => ?_, fun h hmode => ?_⟩
  · have hkey := keyOperand_of_names hk
    refine ⟨⟨_, exec_skp_of_ok hkey, skipIf_pc_toNat _ s, keeps_skipIf _ s⟩,
      ⟨_, exec_sknp_of_ok hkey, ?_, keeps_skipIf _ s⟩⟩
    simp only [skipIf_pc_toNat, Bool.not_eq_true', ← Bool.not_eq_true, ite_not]
  · have hkey := keyOperand_fault h hmode
    exact ⟨exec_skp_of_error hkey, exec_sknp_of_error hkey⟩

/-! ### The timer moves and the key-wait -/

/-- Settles O52: each of the three writes one byte, the register's or the timer's. -/
theorem timerMovesCopyOneByte : Obligations.TimerMovesCopyOneByte :=
  fun s x => ⟨⟨_, rfl, readV_writeV_self s x _, keeps_writeV s x _⟩, ⟨_, rfl, rfl, keeps_setDt s _⟩,
    ⟨_, rfl, rfl, keeps_setSt s _⟩⟩

/-- Settles O54: the meaning sets the wait and its register alone, and looks at no key. -/
theorem keyWaitBegins : Obligations.KeyWaitBegins :=
  fun s x => ⟨_, rfl, rfl, rfl, keeps_setWait s true x⟩

/-! ### The countdown at the end of a tick -/

/-- The countdown lowers both timers by one, not below 0, and keeps all else (R214). -/
theorem decrementTimers_spec (u : State) :
    (decrementTimers u).dt.toNat = u.dt.toNat - 1 ∧ (decrementTimers u).st.toNat = u.st.toNat - 1 ∧
      Keeps { delay := true, sound := true } u (decrementTimers u) :=
  ⟨countDown_toNat u.dt, countDown_toNat u.st, keeps_decrementTimers u⟩

/-- Settles O10: a tick that completes ends in the countdown, of the state it found waiting or of what its instruction
left. -/
theorem everyTickCountsBothTimersDown : Obligations.EveryTickCountsBothTimersDown := by
  intro s t h
  rcases tickOutcome_next.1 h with ⟨hwait, rfl⟩ | ⟨hwait, _, i, u, hd, he, rfl⟩
  · exact ⟨s, .inl ⟨hwait, rfl⟩, decrementTimers_spec s⟩
  · exact ⟨u, .inr ⟨hwait, i, hd, he⟩, decrementTimers_spec u⟩

/-! ### The tick that sets a timer -/

/-- A word that lies in memory ends at 0xFFF at most, so the advance past it does not wrap (R26). -/
theorem advancePc_pc_toNat {s : State} (hpc : s.pc.toNat + 1 ≤ 0xFFF) : (advancePc s).pc.toNat = s.pc.toNat + 2 := by
  rw [advancePc_pc, BitVec.toNat_add, BitVec.toNat_ofNat]
  omega

/-- A tick whose instruction completes is that instruction and then the countdown (R80, R193). -/
theorem step_of_exec_next {s u : State} {i : Instr} (hw : s.waiting = false) (hpc : s.pc.toNat + 1 ≤ 0xFFF)
    (hd : decodeWord (fetchWord s) = .ok i) (he : exec i (advancePc s) = .next u) :
    step s = .next (decrementTimers u) := by
  have hrange : outOfRange s.pc.toNat 2 = false := by
    rw [← Bool.not_eq_true, outOfRange_iff]
    omega
  exact tickOutcome_next.2 (.inr ⟨hw, hrange, i, u, hd, he, rfl⟩)

/-- Settles O53: the countdown follows the move, so it lowers the byte that the move wrote. -/
theorem timerSetTickLeavesOneLess : Obligations.TimerSetTickLeavesOneLess := by
  refine fun s x hw hpc => ⟨fun hd => ⟨_, step_of_exec_next hw hpc hd rfl, ?delay⟩,
    fun hd => ⟨_, step_of_exec_next hw hpc hd rfl, ?sound⟩⟩
  case delay => exact ⟨countDown_toNat (readV s x), countDown_toNat s.st, advancePc_pc_toNat hpc⟩
  case sound => exact ⟨countDown_toNat (readV s x), countDown_toNat s.dt, advancePc_pc_toNat hpc⟩

end Sys2Proof.Machine
end

section
/-!
PROOFS of 60_exceptions.md. When each instruction raises an error, and that none is refused (R201 to R207); what a tick
and `handle_opcode` report, and the state an error of theirs leaves (R206); and the errors that the other transactions
report (R204, R205).
-/

namespace Sys2Proof.Machine

/-! ### Errors of the shared operations -/

/-- An instruction that completes once its range has passed raises `MemoryOutOfBounds` or nothing (R12, R204). -/
theorem checkRange_completes_fault {a n : Nat} {t : State} {e : Fault} :
    checkRange a n (.next t) = .fault e ↔ e = .memoryOutOfBounds ∧ 0 < n ∧ 0xFFF < a + n - 1 := by
  rw [checkRange_fault, outOfRange_iff, and_comm]
  simp only [reduceCtorEq, and_false, or_false]

theorem checkRange_ne_refused {a n : Nat} {rest : Result} (h : ∀ r, rest ≠ .refused r) (r : Refusal) :
    checkRange a n rest ≠ .refused r := by
  unfold checkRange
  split
  · exact nofun
  · exact h r

/-- The key index is an error only of a value above 15 where the mode is to fault (R185). -/
theorem keyOperand_error {s : State} {x : Nibble} {e : Fault} :
    keyOperand s x = .error e ↔
      s.config.keyIndexMode = .fault ∧ 15 < (readV s x).toNat ∧ e = .keyIndexOutOfRange (readV s x).toNat := by
  cases hmode : s.config.keyIndexMode with
  | lowNibble => simp [keyOperand, keyIndex_ok (.inr hmode)]
  | fault =>
    rcases Nat.lt_or_ge 15 (readV s x).toNat with hgt | hle
    · simp [keyOperand_fault hgt hmode, hgt, eq_comm]
    · simp [keyOperand, keyIndex_ok (.inl hle), hle]

/-! ### Errors of the instructions -/

theorem exec_ret_fault {u : Nibble} {s : State} {e : Fault} :
    exec (.ret u) s = .fault e ↔ e = .stackUnderflow ∧ s.stack = [] := by
  rcases List.eq_nil_or_concat' s.stack with h | ⟨rest, a, h⟩
  · simp [exec_ret_empty h, h, eq_comm]
  · simp [exec_ret h, h]

theorem exec_call_fault {nnn : Addr12} {s : State} {e : Fault} :
    exec (.call nnn) s = .fault e ↔ e = .stackOverflow ∧ s.stack.length = s.config.stackDepth := by
  by_cases h : s.stack.length = s.config.stackDepth
  · simp [exec_call_full h, h, eq_comm]
  · simp [exec_call h, h]

theorem exec_drw_fault {x y n : Nibble} {s : State} {e : Fault} :
    exec (.drw x y n) s = .fault e ↔
      e = .memoryOutOfBounds ∧ 0 < n.toNat ∧ 0xFFF < s.i.toNat + n.toNat - 1 :=
  checkRange_completes_fault

theorem exec_ldB_fault {x : Nibble} {s : State} {e : Fault} :
    exec (.ldB x) s = .fault e ↔ e = .memoryOutOfBounds ∧ 0xFFF < s.i.toNat + 2 :=
  checkRange_completes_fault.trans (and_congr_right' (and_iff_right (Nat.succ_pos 2)))

theorem exec_storeRegs_fault {x : Nibble} {s : State} {e : Fault} :
    exec (.storeRegs x) s = .fault e ↔ e = .memoryOutOfBounds ∧ 0xFFF < s.i.toNat + x.toNat :=
  checkRange_completes_fault.trans (and_congr_right' (and_iff_right (Nat.succ_pos _)))

theorem exec_loadRegs_fault {x : Nibble} {s : State} {e : Fault} :
    exec (.loadRegs x) s = .fault e ↔ e = .memoryOutOfBounds ∧ 0xFFF < s.i.toNat + x.toNat :=
  checkRange_completes_fault.trans (and_congr_right' (and_iff_right (Nat.succ_pos _)))

theorem exec_skp_fault {x : Nibble} {s : State} {e : Fault} :
    exec (.skp x) s = .fault e ↔ keyOperand s x = .error e := by
  cases h : keyOperand s x with
  | ok pressed => simp [exec_skp_of_ok h]
  | error e' => simp [exec_skp_of_error h]

theorem exec_sknp_fault {x : Nibble} {s : State} {e : Fault} :
    exec (.sknp x) s = .fault e ↔ keyOperand s x = .error e := by
  cases h : keyOperand s x with
  | ok pressed => simp [exec_sknp_of_ok h]
  | error e' => simp [exec_sknp_of_error h]

/-- Every instruction has a meaning in every state. -/
theorem exec_ne_refused (i : Instr) (s : State) (r : Refusal) : exec i s ≠ .refused r := by
  cases i with
  | ret | call | skp | sknp =>
    simp only [exec, execRet, execCall, execSkp, execSknp]
    split <;> exact nofun
  | drw | ldB | storeRegs | loadRegs =>
    refine checkRange_ne_refused (fun _ => ?_) r
    exact nofun
  | _ => exact nofun

/-- Settles O15: each of the nine instructions that can raise an error raises it in its row of the table, and every
other one completes. -/
theorem instructionErrorsAreExactlyTheTable : Obligations.InstructionErrorsAreExactlyTheTable := by
  refine fun i s e => ⟨?_, exec_ne_refused i s⟩
  cases i with
  | ret => simp [exec_ret_fault]
  | call => simp [exec_call_fault]
  | drw => simp [exec_drw_fault]
  | ldB => simp [exec_ldB_fault]
  | storeRegs => simp [exec_storeRegs_fault]
  | loadRegs => simp [exec_loadRegs_fault]
  | skp => simp [exec_skp_fault, keyOperand_error]
  | sknp => simp [exec_sknp_fault, keyOperand_error]
  | _ => exact iff_of_false nofun (by simp)

/-! ### Errors of a tick and of `handle_opcode` -/

theorem executeWord_fault {w : Word} {s : State} {e : Fault} :
    executeWord w s = .fault e ↔
      (∃ i, decodeWord w = .ok i ∧ exec i s = .fault e) ∨
        (decodeWord w = .error (.invalidOpcode w) ∧ e = .invalidOpcode w) := by
  cases h : decodeWord w with
  | ok i => simp [executeWord_of_ok h]
  | error d =>
    obtain rfl := decodeWord_error h
    simp [executeWord_of_error h, eq_comm]

theorem executeWord_ne_refused (w : Word) (s : State) (r : Refusal) : executeWord w s ≠ .refused r := by
  cases h : decodeWord w with
  | ok i => exact executeWord_of_ok h s ▸ exec_ne_refused i s r
  | error d => simp [executeWord_of_error h]

theorem finishTick_fault {r : Result} {e : Fault} : finishTick r = .fault e ↔ r = .fault e := by
  cases r <;> simp [finishTick]

theorem finishTick_refused {r : Result} {m : Refusal} : finishTick r = .refused m ↔ r = .refused m := by
  cases r <;> simp [finishTick]

/-- A tick that errs was not waiting: its fetch left memory, or its word raised the error with `PC` advanced (R80). -/
theorem tickOutcome_fault {s : State} {e : Fault} :
    tickOutcome s = .fault e ↔
      s.waiting = false ∧
        ((outOfRange s.pc.toNat 2 = true ∧ e = .memoryOutOfBounds) ∨
          (outOfRange s.pc.toNat 2 = false ∧ executeWord (fetchWord s) (advancePc s) = .fault e)) := by
  unfold tickOutcome
  cases s.waiting <;> simp [checkRange_fault, finishTick_fault]

theorem tickOutcome_ne_refused (s : State) (r : Refusal) : tickOutcome s ≠ .refused r := by
  unfold tickOutcome
  split
  · exact nofun
  · exact checkRange_ne_refused (fun _ => finishTick_refused.not.2 (executeWord_ne_refused _ _ _)) r

/-- An error is reported exactly of a fault. -/
theorem settle_reply_err {onError : State} {r : Result} {e : Fault} :
    (settle onError r).2 = .err e ↔ r = .fault e := by
  cases r <;> simp [settle]

theorem settle_reply_unmodelled {onError : State} {r : Result} {m : Refusal} :
    (settle onError r).2 = .unmodelled m ↔ r = .refused m := by
  cases r <;> simp [settle]

/-- With an error comes the state that was set aside for it (R206). -/
theorem settle_eq_err {onError t : State} {r : Result} {e : Fault} (h : settle onError r = (t, .err e)) :
    r = .fault e ∧ t = onError := by
  have hr : r = .fault e := settle_reply_err.1 (congrArg Prod.snd h)
  rw [settle_fault hr] at h
  exact ⟨hr, (congrArg Prod.fst h).symm⟩

/-- The fetch's range check as a bound on its second byte (R55, D7). -/
theorem outOfRange_fetch (a : Nat) : outOfRange a 2 = true ↔ 0xFFF < a + 1 :=
  (outOfRange_iff a 2).trans (and_iff_right (Nat.succ_pos 1))

theorem stateAfterError_of_fetch {s : State} (h : 0xFFF < s.pc.toNat + 1) : stateAfterError s = s :=
  if_pos ((outOfRange_fetch _).2 h)

theorem stateAfterError_of_executed {s : State} (h : s.pc.toNat + 1 ≤ 0xFFF) : stateAfterError s = advancePc s :=
  if_neg fun hout => Nat.not_lt.2 h ((outOfRange_fetch _).1 hout)

/-- Settles O13: an error leaves the state that `settle` is given for it, for a tick as the fetch's check decides; and
no tick or word is refused, as no instruction is. -/
theorem errorsLeaveAPreciseState : Obligations.ErrorsLeaveAPreciseState := by
  refine ⟨fun s hw hpc => ?fetch, fun s t e h => ?tick, fun s t w e h => (settle_eq_err h).2, fun s w r => ?refusal⟩
  case fetch =>
    have hfault := tickOutcome_fault.2 ⟨hw, .inl ⟨(outOfRange_fetch _).2 hpc, rfl⟩⟩
    rw [tick, settle_fault hfault, stateAfterError_of_fetch hpc]
  case tick =>
    obtain ⟨hfault, rfl⟩ := settle_eq_err h
    refine ⟨(tickOutcome_fault.1 hfault).1, ?_⟩
    rcases Nat.lt_or_ge 0xFFF (s.pc.toNat + 1) with hpc | hpc
    · exact .inl ⟨hpc, stateAfterError_of_fetch hpc⟩
    · exact .inr ⟨hpc, stateAfterError_of_executed hpc⟩
  case refusal =>
    exact ⟨settle_reply_unmodelled.not.2 (tickOutcome_ne_refused s r),
      settle_reply_unmodelled.not.2 (executeWord_ne_refused w s r)⟩

/-! ### Errors of the other transactions -/

theorem load_reply_err {bytes : List Byte} {s : State} {e : Fault} (h : (load bytes s).2 = .err e) :
    e = .memoryOutOfBounds := by
  unfold load at h
  split at h <;> cases h
  rfl

theorem setKey_reply_err {k : Nat} {p : Bool} {s : State} {e : Fault} (h : (setKey k p s).2 = .err e) :
    e = .keyIndexOutOfRange k := by
  unfold setKey at h
  split at h <;> cases h
  rfl

theorem getKeyState_error {s : State} {k : Nat} {e : Fault} (h : getKeyState s k = .error e) :
    e = .keyIndexOutOfRange k := by
  unfold getKeyState at h
  split at h <;> cases h
  rfl

/-- The only query that reports an error is that of a key index above 15 (R242). -/
theorem answer_err {q : Query} {s : State} {e : Fault} (h : answer q s = .err e) :
    ∃ k, e = .keyIndexOutOfRange k := by
  cases q with
  | keyState k =>
    cases hk : getKeyState s k with
    | ok pressed => simp [answer, hk] at h
    | error d =>
      obtain rfl : d = e := by simpa [answer, hk] using h
      exact ⟨k, getKeyState_error hk⟩
  | pixel x y => cases hp : getPixel s x y <;> simp [answer, hp] at h
  | _ => cases h

/-! ### StackUnderflow -/

/-- `StackUnderflow` has one row in the table (R202, R207). -/
theorem exec_stackUnderflow {i : Instr} {s : State} :
    exec i s = .fault .stackUnderflow ↔ s.stack = [] ∧ ∃ u, i = .ret u :=
  (instructionErrorsAreExactlyTheTable i s .stackUnderflow).1.trans (by simp)

theorem executeWord_stackUnderflow {w : Word} {s : State} (h : executeWord w s = .fault .stackUnderflow) :
    s.stack = [] ∧ ∃ u, decodeWord w = .ok (.ret u) := by
  rcases executeWord_fault.1 h with ⟨i, hd, he⟩ | ⟨_, he⟩
  · obtain ⟨hempty, u, rfl⟩ := exec_stackUnderflow.1 he
    exact ⟨hempty, u, hd⟩
  · cases he

/-- Settles O16: a tick and a `handle_opcode` report the error of their word, and the other transactions report other
errors or none. -/
theorem stackUnderflowOnlyFromReturn : Obligations.StackUnderflowOnlyFromReturn := by
  refine ⟨fun i s => exec_stackUnderflow, fun q s h => ?_⟩
  cases q with
  | tick =>
    obtain ⟨_, ⟨_, he⟩ | ⟨_, he⟩⟩ := tickOutcome_fault.1 (settle_reply_err.1 h)
    · cases he
    · obtain ⟨hempty, u, hd⟩ := executeWord_stackUnderflow he
      exact ⟨hempty, u, .inl ⟨rfl, hd⟩⟩
  | handleOpcode w =>
    obtain ⟨hempty, u, hd⟩ := executeWord_stackUnderflow (settle_reply_err.1 h)
    exact ⟨hempty, u, .inr ⟨w, rfl, hd⟩⟩
  | reset => cases h
  | load bytes => exact absurd (load_reply_err h) nofun
  | setKey k p => exact absurd (setKey_reply_err h) nofun
  | query q =>
    obtain ⟨k, hk⟩ := answer_err h
    cases hk

end Sys2Proof.Machine
end

section
/-!
PROOFS of 70_reset_and_hazards.md. `load` (R232) and `set_key` (R241, with R192); what the read-only queries give
(R242 to R246); and ticks of a parked engine (R254).
-/

namespace Sys2Proof.Machine

/-! ### load -/

theorem load_of_not_imageFits {bytes : List Byte} (h : ¬ imageFits bytes = true) (s : State) :
    load bytes s = (s, .err .memoryOutOfBounds) :=
  if_neg h

theorem imageFits_iff (bytes : List Byte) : imageFits bytes = true ↔ bytes.length ≤ 0xE00 :=
  decide_eq_true_iff

/-- Settles O57: an image that fits is one block of writes at 0x200, and any other is refused before a byte is
written. -/
theorem loadCopiesTheImage : Obligations.LoadCopiesTheImage := by
  refine fun s bytes hm => ⟨fun hlen => ?fits, fun hlen => ?oversize⟩
  case fits =>
    have hfit : programBase + bytes.length ≤ memSize := Nat.add_le_add_left hlen 0x200
    exact ⟨_, load_of_imageFits ((imageFits_iff bytes).2 hlen) s,
      fun k hk => readByte_writeBytes_of_getElem? hm hfit (List.getElem?_eq_getElem hk),
      keeps_writeBytes hm programBase bytes hfit⟩
  case oversize => exact load_of_not_imageFits (mt (imageFits_iff bytes).1 (Nat.not_le.2 hlen)) s

/-! ### set_key -/

/-- A press while the engine waits also completes the wait (R192). -/
theorem setKey_of_press_waiting {s : State} {k : Nat} {p : Bool} (hk : k ≤ 15) (h : p = true ∧ s.waiting = true) :
    setKey k p s = (completeWait (writeKey s (BitVec.ofNat 4 k) p) (BitVec.ofNat 4 k), .ok) := by
  have hboth : (p && s.waiting) = true := Bool.and_eq_true_iff.2 h
  exact (if_pos hk).trans (congrArg (·, Reply.ok) (if_pos hboth))

/-- A release, or any change of a key while the engine does not wait, writes the key alone (R241). -/
theorem setKey_of_no_completion {s : State} {k : Nat} {p : Bool} (hk : k ≤ 15)
    (h : ¬ (p = true ∧ s.waiting = true)) : setKey k p s = (writeKey s (BitVec.ofNat 4 k) p, .ok) := by
  have hboth : ¬ (p && s.waiting) = true := mt Bool.and_eq_true_iff.1 h
  exact (if_pos hk).trans (congrArg (·, Reply.ok) (if_neg hboth))

/-- An index above 15 names no key (D23). -/
theorem setKey_of_gt {k : Nat} (hk : 15 < k) (p : Bool) (s : State) :
    setKey k p s = (s, .err (.keyIndexOutOfRange k)) :=
  if_neg (Nat.not_le.2 hk)

theorem setKey_keys_getElem (s : State) {k : Nat} (hk : k ≤ 15) (p : Bool) (j : Fin 16) :
    (setKey k p s).1.keys[j.val] = if j.val = k then p else s.keys[j.val] := by
  have hkeys := setKey_keys s ⟨k, Nat.lt_succ_of_le hk⟩ p
  simp only [hkeys, Vector.getElem_set, eq_comm]

theorem readV_completeWait (s : State) (k r : Nibble) :
    readV (completeWait s k) r = if r = s.waitX then k.setWidth 8 else readV s r :=
  readV_writeV s s.waitX r (k.setWidth 8)

/-- The byte that completes a wait is the index of the key (R192). -/
theorem keyByte_toNat {k : Nat} (hk : k ≤ 15) : ((BitVec.ofNat 4 k).setWidth 8).toNat = k := by
  rw [BitVec.toNat_setWidth_of_le (by decide), BitVec.toNat_ofNat]
  omega

/-- Settles O55: the key states are the same in both cases; a completed wait also writes `V[wait_x]` and ends the
wait. -/
theorem setKeyCompletesTheWait : Obligations.SetKeyCompletesTheWait := by
  refine fun s k p => ⟨fun hk => ?_, fun hk => setKey_of_gt hk p s⟩
  have hkeys := setKey_keys_getElem s hk p
  by_cases h : p = true ∧ s.waiting = true
  · rw [setKey_of_press_waiting hk h] at hkeys ⊢
    refine ⟨_, rfl, hkeys, ?completed, rfl, rfl, rfl, rfl, rfl, rfl, rfl, fun _ => rfl, rfl, rfl⟩
    have hreg := readV_completeWait (writeKey s (BitVec.ofNat 4 k) p) (BitVec.ofNat 4 k)
    have hkey := (hreg s.waitX).trans (if_pos rfl)
    rw [if_pos h]
    exact ⟨rfl, hkey ▸ keyByte_toNat hk, fun r hr => (hreg r).trans (if_neg hr)⟩
  · rw [setKey_of_no_completion hk h] at hkeys ⊢
    refine ⟨_, rfl, hkeys, ?kept, rfl, rfl, rfl, rfl, rfl, rfl, rfl, fun _ => rfl, rfl, rfl⟩
    rw [if_neg h]
    exact ⟨rfl, fun _ => rfl⟩

/-! ### Read-only queries -/

theorem getRegisters_length (s : State) : (getRegisters s).length = 16 := Vector.length_toList

theorem getRegisters_getElem? (s : State) (r : Nibble) : (getRegisters s)[r.toNat]? = some (readV s r) := by
  have hr : r.toNat < 16 := r.isLt
  simp [getRegisters, readV, hr]

theorem getMemory_getElem? (s : State) {a : Nat} (h : a < 4096) : (getMemory s)[a]? = some (readByte s a) := by
  have hread := readBytes_getElem? s 0 memSize a h
  rwa [Nat.zero_add] at hread

/-- Settles O58: the registers are the vector's list, and memory is the block of 4096 bytes read from 0 up. -/
theorem diagnosticsGiveTimersRegistersAndMemory : Obligations.DiagnosticsGiveTimersRegistersAndMemory :=
  fun s => ⟨rfl, rfl, getRegisters_length s, getRegisters_getElem? s, readBytes_length s 0 memSize,
    fun _ => getMemory_getElem? s⟩

/-- The view is the rows of the framebuffer joined, each pixel as a number (R37). -/
theorem framebufferView_eq_flatten (s : State) : framebufferView s = s.fb.flatten.toList.map Bool.toNat := by
  simp [framebufferView, Vector.flatten, Vector.toList, List.flatMap_def, List.map_flatten, Function.comp_def]

theorem framebufferView_length (s : State) : (framebufferView s).length = 2048 := by
  rw [framebufferView_eq_flatten, List.length_map, Vector.length_toList]

/-- Pixel `(x, y)` stands at `y*64 + x`, whose quotient by the row length is `y` and whose remainder is `x` (R37,
R243). -/
theorem framebufferView_getElem? (s : State) (x : Fin 64) (y : Fin 32) :
    (framebufferView s)[y.val * 64 + x.val]? = some (pixel s.fb x y).toNat := by
  have hpos : y.val * 64 + x.val < 32 * 64 := by omega
  have hrow : (y.val * 64 + x.val) / 64 = y.val := by omega
  have hcol : (y.val * 64 + x.val) % 64 = x.val := by omega
  have hflat : s.fb.flatten[y.val * 64 + x.val] = pixel s.fb x y := by
    simp only [Vector.getElem_flatten, hrow, hcol, pixel]
  rw [framebufferView_eq_flatten, List.getElem?_map, Vector.getElem?_toList, Vector.getElem?_eq_getElem hpos, hflat,
    Option.map_some]

/-- Settles O59: the view by its layout, pixels and keys inside and outside their ranges, and the fields themselves. -/
theorem queriesReadTheStateTheyName : Obligations.QueriesReadTheStateTheyName :=
  fun s => ⟨framebufferView_length s, fun x y => ⟨framebufferView_getElem? s x y, getPixel_of_onGrid s x y⟩,
    fun _ _ => getPixel_of_offGrid s, getKeyState_of_le s, fun _ => getKeyState_of_gt s, rfl, rfl, rfl, rfl⟩

/-! ### A parked engine -/

/-- The jump of a parked engine undoes the fetch's advance of `PC`, so its tick only counts the timers down (R101,
R254). -/
theorem Parked.step {s : State} (h : Parked s) : step s = .next (decrementTimers s) := by
  obtain ⟨hw, hpc, nnn, hnnn, hfetch⟩ := h
  have hdecode : decodeWord (fetchWord s) = .ok (.jp nnn) := hfetch ▸ decodeWord_encode (.jp nnn)
  have htarget : zextAddr nnn = s.pc := BitVec.eq_of_toNat_eq ((zextAddr_toNat nnn).trans hnnn)
  have hjump : setPc (advancePc s) (zextAddr nnn) = s := by
    rw [htarget]
    rfl
  exact step_of_exec_next hw (Nat.succ_le_succ hpc) hdecode (congrArg Host.Outcome.next hjump)

/-- The countdown leaves the fetched word, `PC` and the wait alone. -/
theorem Parked.decrementTimers {s : State} (h : Parked s) : Parked (decrementTimers s) := h

/-- Settles O12: by induction on the ticks, each of which counts the timers down and leaves the engine parked. -/
theorem parkedEngineChangesOnlyTimers : Obligations.ParkedEngineChangesOnlyTimers := by
  intro s k hs
  induction k generalizing s with
  | zero => exact ⟨s, rfl, hs, rfl, rfl, Keeps.refl _ s⟩
  | succ k ih =>
    obtain ⟨t, hrun, ht, hdt, hst, hkeeps⟩ := ih _ hs.decrementTimers
    refine ⟨t, (run_succ_of_next hs.step k).trans hrun, ht, ?_, ?_, (keeps_decrementTimers s).trans hkeeps⟩
    · rw [hdt, decrementTimers_dt, countDown_toNat]
      omega
    · rw [hst, decrementTimers_st, countDown_toNat]
      omega

end Sys2Proof.Machine
end
